-- ==== Sys2Proof/Word.lean ====
section
/-! DEFINITION. The fixed-width values of the gxhtc3 datapath (spec/00_scope.md R6, R7): every value is unsigned,
bit 0 is the least significant bit. -/

namespace Sys2Proof

/-- An 8-bit wire byte, checksum or checksum accumulator (R6, R28). -/
abbrev Byte := BitVec 8

/-- A 16-bit value: a raw code, a RawTriplet's data, a wire code (R6). -/
abbrev Halfword := BitVec 16

/-- The 3-bit command index of `ENC` (R64, R120). -/
abbrev CommandIndex := BitVec 3

/-- The 64-bit request word (R60). -/
abbrev Request := BitVec 64

/-- The 2-bit response status (R71, R72). -/
abbrev StatusCode := BitVec 2

/-- The 64-bit response result (R71, R73). -/
abbrev ResultWord := BitVec 64

/-- The 32-bit encoding `bits32` of a binary32 value (R8, R141). -/
abbrev FloatBits := BitVec 32

end Sys2Proof
end

