-- ==== Sys2Proof/Machine/Operands.lean ====
section
/-! DEFINITION. The fields of a request word and the operand forms (spec/30_encoding.md R60 to R67, R75), the packing of
bytes into fields (spec/20_memory.md R41, R45) and the zero extension of a result (spec/00_scope.md R7). No field is
sign-extended, scaled or shifted (R61). -/

namespace Sys2Proof.Machine

/-- `op = req[63:60]` (R60). -/
def opField (req : Request) : BitVec 4 := req.extractLsb' 60 4

/-- `rsv = req[59:48]` (R60). -/
def rsvField (req : Request) : BitVec 12 := req.extractLsb' 48 12

/-- `opnd = req[47:0]` (R60, R61). -/
def opndField (req : Request) : BitVec 48 := req.extractLsb' 0 48

/-- The byte whose least significant bit is bit `lo` of the word: `req[lo+7:lo]` (R62, R63, R67). -/
def byteField (req : Request) (lo : Nat) : Byte := req.extractLsb' lo 8

/-- The raw code `req[15:0]` of `HUM` and `TEMP` (R65, R66). -/
def rawField (req : Request) : Halfword := req.extractLsb' 0 16

/-- The command index `cmd = req[2:0]` of `ENC` (R64). -/
def cmdField (req : Request) : CommandIndex := req.extractLsb' 0 3

/-- `req[47:16]`, unused by `CRC8`, `HUM` and `TEMP` (R62, R65, R66). -/
def unusedAbove16 (req : Request) : BitVec 32 := req.extractLsb' 16 32

/-- `req[47:24]`, unused by `CHK` (R63). -/
def unusedAbove24 (req : Request) : BitVec 24 := req.extractLsb' 24 24

/-- `req[47:3]`, unused by `ENC` (R64). -/
def unusedAbove3 (req : Request) : BitVec 45 := req.extractLsb' 3 45

/-- Two bytes as one big-endian 16-bit value, the byte that comes first on the wire most significant (R41, R45). -/
def halfwordOf (first second : Byte) : Halfword := first ++ second

/-- The byte of a 16-bit value that comes first on the wire, `v[15:8]` (R41, R42). -/
def firstByte (v : Halfword) : Byte := v.extractLsb' 8 8

/-- The byte of a 16-bit value that comes second on the wire, `v[7:0]` (R41, R42). -/
def secondByte (v : Halfword) : Byte := v.extractLsb' 0 8

/-- `zext_64` (R7). -/
def zext64 {n : Nat} (v : BitVec n) : ResultWord := v.setWidth 64

end Sys2Proof.Machine
end

