-- ==== Sys2Proof/Syntax.lean ====
section
/-! DEFINITION. The six operations of the block, one constructor for each row of spec/opcode_table.json, with the operand
fields the spec's layouts name (spec/30_encoding.md R62 to R68, R75). -/

namespace Sys2Proof

/-- One operation with its operands.
* `crc8 b0 b1` (R62, R103): `b0` is processed first.
* `chk b0 b1 c` (R63, R104): the RawTriplet `{b0, b1, c}`.
* `enc cmd` (R64, R122): the command index; 6 and 7 name no Command (WellFormed.lean).
* `hum raw` (R65, R143) and `temp raw` (R66, R144): the unsigned raw code.
* `meas h0 h1 hc t0 t1 tc` (R67, R161): the 6-byte frame in wire order. -/
inductive Instr where
  | crc8 (b0 b1 : Byte)
  | chk (b0 b1 c : Byte)
  | enc (cmd : CommandIndex)
  | hum (raw : Halfword)
  | temp (raw : Halfword)
  | meas (h0 h1 hc t0 t1 tc : Byte)
  deriving DecidableEq, Repr

end Sys2Proof
end

