-- ==== Sys2Proof/WellFormed.lean ====
section
/-! DEFINITION. Which terms of `Instr` are operations of the block. Every operand field has exactly the width its type says,
so the one check left is the command index: "Index values 6 and 7 name no Command" (spec/30_encoding.md R64, R69). -/

namespace Sys2Proof

/-- The check on a command index: one of the six indices 0 to 5 (R64, R120). -/
def commandIndexOk (cmd : CommandIndex) : Bool :=
  decide (cmd.toNat ≤ 5)

/-- A well-formed operation: one that a legal request word stands for (R69, R70). -/
def Instr.wellFormed (i : Instr) : Bool :=
  match i with
  | .crc8 _ _ => true
  | .chk _ _ _ => true
  | .enc cmd => commandIndexOk cmd
  | .hum _ => true
  | .temp _ => true
  | .meas _ _ _ _ _ _ => true

end Sys2Proof
end

