-- ==== Sys2Proof/Decode.lean ====
section
/-! DEFINITION. The decoder of the request word, total on all 2^64 words (spec/30_encoding.md R68 to R70, R74), and after it
the encoder (R76), the legality predicate as the spec's pseudocode gives it (R70), the rows of spec/opcode_table.json, and the
host's `decodeTableWord`. -/

namespace Sys2Proof

open Sys2Proof.Machine

/-- Why a request word is illegal, one name for each case of R69. The block answers each of them with `(ILLEGAL, 0)` (R202); the
names are the decoder's own and no request can observe them. -/
inductive DecodeError where
  /-- Case 1: `op` is `0x0` or in `0x7 .. 0xF`. -/
  | reservedOp (op : BitVec 4)
  /-- Case 2: `rsv = req[59:48]` is not zero. -/
  | reservedBits (rsv : BitVec 12)
  /-- Case 3: an operand bit that must be zero is not zero. -/
  | unusedOperandBits
  /-- Case 4: `ENC` with an index that names no Command. -/
  | noSuchCommand (cmd : CommandIndex)
  deriving DecidableEq, Repr

/-- What the decoder answers: an operation, or the reason why the word is illegal. -/
inductive Decoded where
  | instr (i : Instr)
  | illegal (why : DecodeError)
  deriving DecidableEq, Repr

/-- `i` where the unused operand bits are all zero, else illegal (R69 case 3). -/
def decodeWhenZero {n : Nat} (unused : BitVec n) (i : Instr) : Decoded :=
  if unused = 0 then .instr i else .illegal .unusedOperandBits

/-- The `ENC` layout (R64, R69 cases 3 and 4). -/
def decodeEnc (req : Request) : Decoded :=
  if commandIndexOk (cmdField req) then decodeWhenZero (unusedAbove3 req) (.enc (cmdField req))
  else .illegal (.noSuchCommand (cmdField req))

/-- "A decoder reads `op` and then the one operand layout that `op` selects" (R74); opcode map R68. -/
def decodeOp (req : Request) : Decoded :=
  match opField req with
  | 0x1#4 => decodeWhenZero (unusedAbove16 req) (.crc8 (byteField req 8) (byteField req 0))
  | 0x2#4 => decodeWhenZero (unusedAbove24 req) (.chk (byteField req 16) (byteField req 8) (byteField req 0))
  | 0x3#4 => decodeEnc req
  | 0x4#4 => decodeWhenZero (unusedAbove16 req) (.hum (rawField req))
  | 0x5#4 => decodeWhenZero (unusedAbove16 req) (.temp (rawField req))
  | 0x6#4 => .instr (.meas (byteField req 40) (byteField req 32) (byteField req 24)
      (byteField req 16) (byteField req 8) (byteField req 0))
  | op => .illegal (.reservedOp op)

/-- The decoder of a request word (R60, R68, R69). -/
def decode (req : Request) : Decoded :=
  if rsvField req = 0 then decodeOp req else .illegal (.reservedBits (rsvField req))

/-- The operation a request word stands for, if it is legal. -/
def decode? (req : Request) : Option Instr :=
  match decode req with
  | .instr i => some i
  | .illegal _ => none

/-- The request word of an operation, field by field as the assembler syntax gives it (R76; layouts R62 to R67). -/
def encode (i : Instr) : Request :=
  match i with
  | .crc8 b0 b1 => 0x1#4 ++ 0x000#12 ++ 0#32 ++ b0 ++ b1
  | .chk b0 b1 c => 0x2#4 ++ 0x000#12 ++ 0#24 ++ b0 ++ b1 ++ c
  | .enc cmd => 0x3#4 ++ 0x000#12 ++ 0#45 ++ cmd
  | .hum raw => 0x4#4 ++ 0x000#12 ++ 0#32 ++ raw
  | .temp raw => 0x5#4 ++ 0x000#12 ++ 0#32 ++ raw
  | .meas h0 h1 hc t0 t1 tc => 0x6#4 ++ 0x000#12 ++ h0 ++ h1 ++ hc ++ t0 ++ t1 ++ tc

/-- The legality predicate, transcribed from the pseudocode of R70. -/
def legal (req : Request) : Bool :=
  if rsvField req ≠ 0 then false
  else if opField req = 0x1 then decide (unusedAbove16 req = 0)
  else if opField req = 0x2 then decide (unusedAbove24 req = 0)
  else if opField req = 0x3 then decide (unusedAbove3 req = 0) && decide ((cmdField req).toNat ≤ 5)
  else if opField req = 0x4 then decide (unusedAbove16 req = 0)
  else if opField req = 0x5 then decide (unusedAbove16 req = 0)
  else if opField req = 0x6 then true
  else false

/-- The mnemonic of an operation, as spec/opcode_table.json spells it (R68). -/
def Instr.mnemonic (i : Instr) : String :=
  match i with
  | .crc8 _ _ => "CRC8"
  | .chk _ _ _ => "CHK"
  | .enc _ => "ENC"
  | .hum _ => "HUM"
  | .temp _ => "TEMP"
  | .meas _ _ _ _ _ _ => "MEAS"

/-- The `op` value of an operation (R68). -/
def Instr.opcode (i : Instr) : BitVec 4 :=
  match i with
  | .crc8 _ _ => 0x1
  | .chk _ _ _ => 0x2
  | .enc _ => 0x3
  | .hum _ => 0x4
  | .temp _ => 0x5
  | .meas _ _ _ _ _ _ => 0x6

/-- The rows of spec/opcode_table.json: mnemonic, `match` and `mask` (R70). -/
def opcodeTable : List (String × Request × Request) :=
  [("CRC8", 0x1000000000000000, 0xFFFFFFFFFFFF0000),
   ("CHK", 0x2000000000000000, 0xFFFFFFFFFF000000),
   ("ENC", 0x3000000000000000, 0xFFFFFFFFFFFFFFF8),
   ("HUM", 0x4000000000000000, 0xFFFFFFFFFFFF0000),
   ("TEMP", 0x5000000000000000, 0xFFFFFFFFFFFF0000),
   ("MEAS", 0x6000000000000000, 0xFFFF000000000000)]

/-- Whether a word matches a row, by `(word & mask) == match` (R70). -/
def matchesRow (req : Request) (row : String × Request × Request) : Bool :=
  decide (req &&& row.2.2 = row.2.1)

/-- The mnemonics of all the rows that a word matches. -/
def matchingMnemonics (req : Request) : List String :=
  (opcodeTable.filter (matchesRow req)).map (fun row => row.1)

/-- The one request word whose low `nbits` bits are those of `w`, every bit above them zero. A request is one 64-bit word and
has no other length (R60, R74). -/
def tableWord (nbits w : Nat) : Request := BitVec.ofNat 64 (w % 2 ^ nbits)

/-- The host's question: the operation the decoder reads from the word `w` of `nbits` bits. -/
def decodeTableWord (nbits w : Nat) : Option Instr := decode? (tableWord nbits w)

end Sys2Proof
end

