-- ==== Sys2Proof/Machine/Flags.lean ====
section
/-! DEFINITION. The only flag-like value, the 2-bit status of a response (spec/10_state.md R24, spec/30_encoding.md R72). -/

namespace Sys2Proof.Machine

/-- `OK`: the operation completed; the checksum passed where one was checked (R72). -/
def statusOk : StatusCode := 0b00

/-- `INTEGRITY`: a checksum did not match (R72, R201). -/
def statusIntegrity : StatusCode := 0b01

/-- `ILLEGAL`: the request is illegal under R69 (R72, R202). -/
def statusIllegal : StatusCode := 0b10

/-- `0b11`: never produced (R72). -/
def statusReserved : StatusCode := 0b11

end Sys2Proof.Machine
end

