-- ==== Sys2Proof/Machine/State.lean ====
section
/-! DEFINITION. The state of the block as plain data (spec/10_state.md R20, R31). The spec's complete state table (R31) has five
lines. Three are constants that no request can write (R25, R26) and stand beside the operations that read them; the two that
change are the fields `inFlight` and `response`. The third field, `events`, is the model's own: what happens at the block's
boundary at the coming turns (spec/70_reset_and_hazards.md R240 to R257). -/

namespace Sys2Proof.Machine

/-- One response: "a 2-bit `status` and a 64-bit `result`", delivered together (spec/30_encoding.md R71). -/
structure Response where
  status : StatusCode
  result : ResultWord
  deriving DecidableEq, Repr

/-- What happens at the block's boundary in one turn. -/
inductive Event where
  /-- The host presents a new request word (R49, R250). -/
  | present (req : Request)
  /-- The host drives `req` on the request word it holds (R250). -/
  | change (req : Request)
  /-- Reset is asserted (R240, R242). -/
  | assertReset
  /-- A cycle passes and no response comes yet: LATENCY is the number of these (R256). -/
  | tick
  /-- The block answers the request in flight (R49, R71). -/
  | deliver
  deriving DecidableEq, Repr

/-- The state of the block.
* `inFlight`: the request in flight, 64 bits, at most one (R31, R49); none after reset (R240).
* `response`: the response that the turn just taken delivered, 2 + 64 bits (R31, R71); it is not retained after its turn (R24)
  and none exists after reset (R241).
* `events`: the model's own field (assumption 1): the events of the coming turns, the first of them next. With none listed the
  block takes its turn. -/
structure State where
  inFlight : Option Request
  response : Option Response
  events   : List Event
  deriving DecidableEq, Repr

/-- Why the machine stops. Both faults are the HOST's: the block itself raises none (spec/60_exceptions.md R200). -/
inductive Fault where
  /-- Raised by `Sys2Proof.Machine.present`: the host presented a request while another was in flight, which it "must not" do
  (R49, R250). Safe: the model stops where the spec defines no response. -/
  | presentedWhileInFlight
  /-- Raised by `Sys2Proof.Machine.change`: the host changed the request word in flight; "a model must treat such a change as a
  host fault" (R250). Safe: the model stops where the spec defines no response. -/
  | requestChangedInFlight
  deriving DecidableEq, Repr

/-- Why an instruction has no meaning. -/
inductive Refusal where
  /-- Raised by no arm of `exec`: every operation of the table has its meaning. It stands here because the host's interface
  names it. Safe: the model would stop. -/
  | notModelled (mnemonic : String)
  deriving DecidableEq, Repr

/-- The block right after reset: "no request in flight", no response, nothing else to reset (R240, R241, R243). -/
def State.reset : State :=
  { inFlight := none, response := none, events := [] }

end Sys2Proof.Machine
end

