-- ==== Sys2Proof/Machine/Ops.lean ====
section
/-! DEFINITION. The named operations on the state: ending a transaction with a response, the two error responses that stand in
the place of exceptions (spec/00_scope.md R8, spec/60_exceptions.md R200 to R206), and what the host and reset do at the block's
boundary (spec/20_memory.md R49, spec/70_reset_and_hazards.md R240 to R256). There is no register file, no memory, no trap entry
and no return from one (R21, R40, R208). -/

namespace Sys2Proof.Machine

/-- `respond(status, result)`: ends the transaction. The request is no longer in flight and the response exists (R8, R49, R71). -/
def respond (status : StatusCode) (result : ResultWord) (s : State) : Host.Outcome State Fault Refusal :=
  .next { s with inFlight := none, response := some { status := status, result := result } }

/-- `raise IllegalRequest()`, that is `respond(ILLEGAL, 0)` (R8, R202). -/
def raiseIllegalRequest (s : State) : Host.Outcome State Fault Refusal :=
  respond statusIllegal 0 s

/-- `raise IntegrityFailure()`, that is `respond(INTEGRITY, 0)` (R8, R201). -/
def raiseIntegrityFailure (s : State) : Host.Outcome State Fault Refusal :=
  respond statusIntegrity 0 s

/-- A turn in which no response is delivered: the response of the turn before is not retained (R24, R241). -/
def quietTurn (s : State) : Host.Outcome State Fault Refusal :=
  .next { s with response := none }

/-- The host presents `req`. "At most one request is in flight at a time" (R49). -/
def present (req : Request) (s : State) : Host.Outcome State Fault Refusal :=
  match s.inFlight with
  | none => .next { s with inFlight := some req, response := none }
  | some _ => .fault .presentedWhileInFlight

/-- The host drives `req` on the word it holds: the word in flight may not change (R250). With nothing in flight there is no word
to hold, and nothing happens (assumption 5). -/
def change (req : Request) (s : State) : Host.Outcome State Fault Refusal :=
  match s.inFlight with
  | none => quietTurn s
  | some held => if req = held then quietTurn s else .fault .requestChangedInFlight

/-- Reset: the request in flight "is discarded and never gets a response"; there is no other state to reset (R240, R242). -/
def assertReset (s : State) : Host.Outcome State Fault Refusal :=
  .next { s with inFlight := none, response := none }

/-- The event of the coming turn; with none listed the block takes its turn (R257: every request is answered). -/
def nextEvent (s : State) : Event := s.events.headD .deliver

/-- The state with the event of the coming turn taken off the list. -/
def popEvent (s : State) : State := { s with events := s.events.tail }

end Sys2Proof.Machine
end

