-- ==== Sys2Proof/Machine/Checksum.lean ====
section
/-! DEFINITION. The Checksum Validator: the checksum function (spec/41_checksum.md R100 to R102) and the operations `CRC8` (R103)
and `CHK` (R104). -/

namespace Sys2Proof.Machine

/-- The polynomial `0x31`, hardwired (R26, R100). -/
def polynomial : Byte := 0x31

/-- The seed `0xFF`, hardwired (R26, R100; spec/90_conflicts.md C1). -/
def seed : Byte := 0xFF

/-- One round on the accumulator; the test is `acc[7] == 1` (R101). -/
def crcRound (acc : Byte) : Byte :=
  if acc.extractLsb' 7 1 = 1 then (acc <<< 1) ^^^ polynomial else acc <<< 1

/-- `k` rounds (R102: "repeat 8 times"). -/
def crcRounds (k : Nat) (acc : Byte) : Byte :=
  match k with
  | 0 => acc
  | k + 1 => crcRounds k (crcRound acc)

/-- One payload byte: XOR it into the accumulator, then 8 rounds (R102). -/
def crcByte (acc b : Byte) : Byte := crcRounds 8 (acc ^^^ b)

/-- The checksum of 2 bytes, `b0` first (R102, R44). -/
def crc8 (b0 b1 : Byte) : Byte := [b0, b1].foldl crcByte seed

/-- `validate`: equality of all 8 bits (R104). -/
def checksumPasses (b0 b1 c : Byte) : Bool := decide (crc8 b0 b1 = c)

/-- `CRC8` (R103): always `OK`, with the checksum zero-extended. -/
def execCrc8 (b0 b1 : Byte) (s : State) : Host.Outcome State Fault Refusal :=
  respond statusOk (zext64 (crc8 b0 b1)) s

/-- `CHK` (R104): on a pass the 16-bit data, else `IntegrityFailure`. -/
def execChk (b0 b1 c : Byte) (s : State) : Host.Outcome State Fault Refusal :=
  if checksumPasses b0 b1 c then respond statusOk (zext64 (halfwordOf b0 b1)) s
  else raiseIntegrityFailure s

end Sys2Proof.Machine
end

