-- ==== Sys2Proof/Config.lean ====
section
/-! DEFINITION. What is fixed for the machine and is no state of it: the closed enumeration of Commands
(spec/00_scope.md R10, spec/42_command.md R121), and the constants and parameters of the HOST around the block
(spec/60_exceptions.md R226, spec/70_reset_and_hazards.md R252 to R255). The block's own hardwired constants (R25, R26)
stand beside the operations that use them: the command code ROM in Machine/Command.lean, the polynomial and the seed in
Machine/Checksum.lean, the conversion constants in Machine/Convert.lean. The block's one open parameter, LATENCY (R256), is
no number here: `Event.tick` in Machine/State.lean lets any count of cycles pass before a response. -/

namespace Sys2Proof

/-- The closed enumeration Command, in the order in which the source lists it (R10, R120, R121). -/
inductive Command where
  | wakeup
  | sleep
  | softReset
  | readSerialID
  | measureHumidityFirst
  | measureTemperatureFirst
  deriving DecidableEq, Repr

namespace Config

/-- The sensor's base 7-bit bus address (R226). -/
def baseAddress : BitVec 7 := 0x70#7

/-- The write address, `(0x70<<1)|0` (R226). -/
def writeAddress : Byte := baseAddress ++ 0#1

/-- The read address, `(0x70<<1)|1` (R226). -/
def readAddress : Byte := baseAddress ++ 1#1

/-- The transport's timeout per transaction, in milliseconds (R226). -/
def transportTimeoutMs : Nat := 1000

/-- The least wait after Wakeup, in microseconds (R252). -/
def wakeWaitMinUs : Nat := 40

/-- The least wait after SoftReset, in microseconds (R253). -/
def resetWaitMinUs : Nat := 500

end Config

/-- The sensor's power state as the host assumes it (R221). -/
inductive Machine.SensorPower where
  | sleeping
  | awake
  | measuring
  deriving DecidableEq, Repr

/-- The two ways in which a host may decode a measurement frame: "`MEAS` h0, h1, hc, t0, t1, tc, or the equivalent two `CHK` plus
`HUM` and `TEMP`" (R223 step 4, R163). -/
inductive FrameDecoding where
  | oneMeas
  | fourSingles
  deriving DecidableEq, Repr

/-- The host's own parameters, which the spec leaves to it. Every statement about the host holds for all of them.
* `wakeSlackUs`, `resetSlackUs`: a wait is its minimum plus a slack of the host's choosing (R255: "A host model may wait any time
  at or above the minimum").
* `probeRetries`: the retry count of `probe` is given no value (R226; item 13 of spec/93_implementation_defined.md).
* `powerAtStart`, `powerAfterReset`: the sensor's power state at start and after SoftReset, each "`parameter` of a host model,
  with Sleeping as the source's assumption" (item 10 of spec/93_implementation_defined.md; R221, R224, R245; assumption 19).
* `decoding`: which of the two decodings of a frame the host uses (R223 step 4; assumption 17). -/
structure HostParams where
  wakeSlackUs     : Nat
  resetSlackUs    : Nat
  probeRetries    : Nat
  powerAtStart    : Machine.SensorPower := .sleeping
  powerAfterReset : Machine.SensorPower := .sleeping
  decoding        : FrameDecoding := .oneMeas
  deriving DecidableEq, Repr

end Sys2Proof
end

