-- ==== Sys2Proof/Machine/Command.lean ====
section
/-! DEFINITION. The Command Codec: the command code ROM (spec/10_state.md R25, spec/42_command.md R120), the serialization of a
wire code (R123) and the operation `ENC` (R122). -/

namespace Sys2Proof.Machine

/-- The command code ROM, 6 entries of 16 bits, indexed by the command index (R25, R120). It is read-only and constant through
reset (R240), so it is a constant and no field of `State` (assumption 2). -/
def commandRom : List Halfword := [0x3517, 0xB098, 0x805D, 0xEFC8, 0x5C24, 0x7CA2]

/-- `ROM[cmd]`; none for the indices 6 and 7, which name no Command (R120). -/
def romLookup (cmd : CommandIndex) : Option Halfword := commandRom[cmd.toNat]?

/-- The index of a Command (R120). -/
def commandIndex (c : Command) : CommandIndex :=
  match c with
  | .wakeup => 0
  | .sleep => 1
  | .softReset => 2
  | .readSerialID => 3
  | .measureHumidityFirst => 4
  | .measureTemperatureFirst => 5

/-- The bytes a host transmits for a wire code, first byte first (R42, R123). -/
def serialize (code : Halfword) : List Byte := [firstByte code, secondByte code]

/-- `ENC` (R122): the wire code, its first byte in `result[15:8]`; an index that names no Command is illegal. -/
def execEnc (cmd : CommandIndex) (s : State) : Host.Outcome State Fault Refusal :=
  match romLookup cmd with
  | some code => respond statusOk (zext64 (halfwordOf (firstByte code) (secondByte code))) s
  | none => raiseIllegalRequest s

end Sys2Proof.Machine
end

