-- ==== Sys2Proof/Machine/Float.lean ====
section
/-! DEFINITION. Rounding an exact rational once to a binary floating-point format, ties to even: `RN32` and `bits32` of
spec/00_scope.md R8. A rational is a numerator and a denominator above zero. The rounding is written for any rational, so that
no range is assumed: results below the normal range are subnormal, results above it are infinite (assumption 8); neither occurs
in a conversion (spec/43_convert.md R143, R146). -/

namespace Sys2Proof.Machine

/-- A binary interchange format: the bits of its significand with the leading one, the exponent of its smallest normal number,
and the biased exponent of its infinities. -/
structure FloatFormat where
  precision : Nat
  emin      : Int
  expMax    : Nat
  deriving DecidableEq, Repr

/-- binary32: 24 significand bits, 8 exponent bits (R47, R141; the bias is PRESUMED, assumption 16). -/
def binary32 : FloatFormat := { precision := 24, emin := -126, expMax := 255 }

/-- binary64, which spec/43_convert.md R142 compares with: 53 significand bits, 11 exponent bits
(PRESUMED, assumption 16). -/
def binary64 : FloatFormat := { precision := 53, emin := -1022, expMax := 2047 }

/-- The natural number nearest to `n / d`, ties to even. -/
def nearestEven (n d : Nat) : Nat :=
  if 2 * (n % d) < d then n / d
  else if d < 2 * (n % d) then n / d + 1
  else n / d + (n / d) % 2

/-- Whether `n / d < 2 ^ e`. -/
def ratioBelowPow (n d : Nat) (e : Int) : Bool :=
  decide (n * 2 ^ (-e).toNat < d * 2 ^ e.toNat)

/-- The exponent `e` with `2 ^ e ≤ n / d < 2 ^ (e + 1)`, for `n` and `d` above zero. -/
def ratioLog2 (n d : Nat) : Int :=
  let e : Int := (n.log2 : Int) - (d.log2 : Int)
  if ratioBelowPow n d e then e - 1 else e

/-- The exponent of the binade in which `n / d` is rounded: its own, or the smallest normal one below the normal range. -/
def binade (f : FloatFormat) (n d : Nat) : Int := max (ratioLog2 n d) f.emin

/-- `n / d` in units of the last place of its binade, rounded once (R142). -/
def roundedSignificand (f : FloatFormat) (n d : Nat) : Nat :=
  let shift : Int := (f.precision : Int) - 1 - binade f n d
  nearestEven (n * 2 ^ shift.toNat) (d * 2 ^ (-shift).toNat)

/-- The exponent and fraction fields, as one number, of the value nearest to `n / d`. The leading one of a normal significand
adds one to the exponent field; a significand that rounds up to the next power of two carries into it. -/
def magnitudeBits (f : FloatFormat) (n d : Nat) : Nat :=
  if n = 0 then 0
  else min ((binade f n d - f.emin).toNat * 2 ^ (f.precision - 1) + roundedSignificand f n d)
    (f.expMax * 2 ^ (f.precision - 1))

/-- `bits32(RN32(n / d))` (R8, R141): the sign in bit 31, the magnitude below it; zero is `+0.0` (R143). -/
def rn32 (n : Int) (d : Nat) : FloatBits :=
  (if n < 0 then 0x80000000 else 0) ||| BitVec.ofNat 32 (magnitudeBits binary32 n.natAbs d)

end Sys2Proof.Machine
end

