-- ==== Sys2Proof/Machine/Convert.lean ====
section
/-! DEFINITION. The Unit Converter: the two formulas, exact (spec/43_convert.md R140), rounded once to binary32 (R142), and the
operations `HUM` (R143) and `TEMP` (R144). -/

namespace Sys2Proof.Machine

/-- The divisor `65535.0` of both formulas, hardwired (R26, R140). -/
def conversionDivisor : Nat := 65535

/-- The numerator of `raw * 100 / 65535` (R140). -/
def humNumerator (raw : Halfword) : Int := (raw.toNat : Int) * 100

/-- The numerator of `raw * 175 / 65535 - 45` over the divisor 65535 (R140). -/
def tempNumerator (raw : Halfword) : Int := (raw.toNat : Int) * 175 - 45 * (conversionDivisor : Int)

/-- `bits32(hum_value(raw))` (R142). -/
def humBits (raw : Halfword) : FloatBits := rn32 (humNumerator raw) conversionDivisor

/-- `bits32(temp_value(raw))` (R142). -/
def tempBits (raw : Halfword) : FloatBits := rn32 (tempNumerator raw) conversionDivisor

/-- `HUM` (R143): every raw code is valid. -/
def execHum (raw : Halfword) (s : State) : Host.Outcome State Fault Refusal :=
  respond statusOk (zext64 (humBits raw)) s

/-- `TEMP` (R144): every raw code is valid, and the code is unsigned. -/
def execTemp (raw : Halfword) (s : State) : Host.Outcome State Fault Refusal :=
  respond statusOk (zext64 (tempBits raw)) s

end Sys2Proof.Machine
end

