-- ==== Sys2Proof/Machine/Measurement.lean ====
section
/-! DEFINITION. The measurement frame: the operation `MEAS` (spec/44_measurement.md R160 to R164). -/

namespace Sys2Proof.Machine

/-- `MEAS` (R161): both triplets checked independently (R162); humidity in `result[63:32]`, temperature in `result[31:0]`. -/
def execMeas (h0 h1 hc t0 t1 tc : Byte) (s : State) : Host.Outcome State Fault Refusal :=
  if checksumPasses h0 h1 hc && checksumPasses t0 t1 tc then
    respond statusOk (humBits (halfwordOf h0 h1) ++ tempBits (halfwordOf t0 t1)) s
  else raiseIntegrityFailure s

end Sys2Proof.Machine
end

