-- ==== Sys2Proof/Machine/Dispatch.lean ====
section
/-! DEFINITION. One arm for each operation of the block (spec/30_encoding.md R68). -/

namespace Sys2Proof.Machine

/-- The response of a decoded operation to the request in flight. -/
def exec (i : Instr) (s : State) : Host.Outcome State Fault Refusal :=
  match i with
  | .crc8 b0 b1 => Sys2Proof.Machine.execCrc8 b0 b1 s
  | .chk b0 b1 c => Sys2Proof.Machine.execChk b0 b1 c s
  | .enc cmd => Sys2Proof.Machine.execEnc cmd s
  | .hum raw => Sys2Proof.Machine.execHum raw s
  | .temp raw => Sys2Proof.Machine.execTemp raw s
  | .meas h0 h1 hc t0 t1 tc => Sys2Proof.Machine.execMeas h0 h1 hc t0 t1 tc s

end Sys2Proof.Machine
end

