-- ==== Sys2Proof/Machine/Transaction.lean ====
section
/-! DEFINITION. One turn of the machine: what the block does with the request in flight, and what each event at its boundary
does (spec/20_memory.md R49, spec/60_exceptions.md R202, R205, spec/70_reset_and_hazards.md R240 to R257). -/

namespace Sys2Proof.Machine

/-- The block answers `req`: an illegal word gets `(ILLEGAL, 0)` before any checksum is compared (R69, R202, R205), a legal one
the response of its operation. -/
def answer (req : Request) (s : State) : Host.Outcome State Fault Refusal :=
  match decode req with
  | .instr i => exec i s
  | .illegal _ => raiseIllegalRequest s

/-- The block's turn: with no request in flight it delivers nothing (R241). -/
def blockTurn (s : State) : Host.Outcome State Fault Refusal :=
  match s.inFlight with
  | none => quietTurn s
  | some req => answer req s

/-- One turn with the event that it takes. -/
def turn (e : Event) (s : State) : Host.Outcome State Fault Refusal :=
  match e with
  | .present req => present req s
  | .change req => change req s
  | .assertReset => assertReset s
  | .tick => quietTurn s
  | .deliver => blockTurn s

end Sys2Proof.Machine
end

