-- ==== Sys2Proof/Machine/Step.lean ====
section
/-! DEFINITION. One step of the machine, and the placing of a request word where the next step answers it. -/

namespace Sys2Proof.Machine

/-- One step: take the next event off the list and do what it says; with none listed the block takes its turn. -/
def step (s : State) : Host.Outcome State Fault Refusal :=
  turn (nextEvent s) (popEvent s)

/-- The state with the request word of `nbits` bits `w` in flight and the block's turn next (assumption 3). The events that were
listed stay listed, after that turn. DESIGN CHOICE (assumption 18): it is total, so in a state that is busy it replaces the request
in flight and in one that holds a response it leaves that response for the coming turn to overwrite, where the event `present`
faults and clears. It is a placing from outside the machine and no event of it. -/
def State.withFetchWord (s : State) (nbits w : Nat) : State :=
  { s with inFlight := some (tableWord nbits w), events := .deliver :: s.events }

end Sys2Proof.Machine
end

