-- ==== Sys2Proof/Machine/Assembler.lean ====
section
/-! DEFINITION. The textual form of a request (spec/30_encoding.md R76), from the mnemonic and its operands on: what each line
assembles to, and which literals an assembler refuses. The line stands here after its words are split and its `0x..` literals
are read as numbers; no character-level reader is modelled (assumption 7). -/

namespace Sys2Proof.Machine

/-- One line of R76. A byte operand is a literal of at most 8 bits and a raw code one of at most 16 bits; here they are the
numbers as written, of any size. -/
inductive AsmLine where
  | crc8 (b0 b1 : Nat)
  | chk (b0 b1 c : Nat)
  | enc (name : String)
  | hum (raw : Nat)
  | temp (raw : Nat)
  | meas (h0 h1 hc t0 t1 tc : Nat)
  | word (w : Nat)
  deriving DecidableEq, Repr

/-- The six command names, "spelled as in §3": the assembler's only symbols (R76). -/
def commandName (c : Command) : String :=
  match c with
  | .wakeup => "Wakeup"
  | .sleep => "Sleep"
  | .softReset => "SoftReset"
  | .readSerialID => "ReadSerialID"
  | .measureHumidityFirst => "MeasureHumidityFirst"
  | .measureTemperatureFirst => "MeasureTemperatureFirst"

/-- All six Commands (R121). -/
def allCommands : List Command :=
  [.wakeup, .sleep, .softReset, .readSerialID, .measureHumidityFirst, .measureTemperatureFirst]

/-- The Command a name stands for; none for any other name (R76). -/
def commandOfName (name : String) : Option Command :=
  allCommands.find? (fun c => decide (commandName c = name))

/-- A literal in a field of `width` bits. "An assembler refuses a literal too wide for its field" (R76). -/
def literal (width v : Nat) : Option (BitVec width) :=
  if v < 2 ^ width then some (BitVec.ofNat width v) else none

/-- The operation an assembler line writes; none where a literal is too wide, the name is no Command, or the line is `.word`. -/
def asmInstr (line : AsmLine) : Option Instr :=
  match line with
  | .crc8 b0 b1 =>
    match literal 8 b0, literal 8 b1 with
    | some b0, some b1 => some (.crc8 b0 b1)
    | _, _ => none
  | .chk b0 b1 c =>
    match literal 8 b0, literal 8 b1, literal 8 c with
    | some b0, some b1, some c => some (.chk b0 b1 c)
    | _, _, _ => none
  | .enc name => (commandOfName name).map (fun c => .enc (commandIndex c))
  | .hum raw => (literal 16 raw).map .hum
  | .temp raw => (literal 16 raw).map .temp
  | .meas h0 h1 hc t0 t1 tc =>
    match literal 8 h0, literal 8 h1, literal 8 hc, literal 8 t0, literal 8 t1, literal 8 tc with
    | some h0, some h1, some hc, some t0, some t1, some tc => some (.meas h0 h1 hc t0 t1 tc)
    | _, _, _, _, _, _ => none
  | .word _ => none

/-- The request word a line assembles to: a `.word` line is "any word, legal or not, as written" (R76). -/
def assemble (line : AsmLine) : Option Request :=
  match line with
  | .word w => literal 64 w
  | line => (asmInstr line).map encode

end Sys2Proof.Machine
end

