-- ==== Sys2Proof/Machine/Controller.lean ====
section
/-! DEFINITION. HOST CONTEXT, outside the block: the source's Sensor Controller, which the spec keeps out of the block's scope
(spec/00_scope.md R5) and describes because "a model of a host program needs it" (spec/60_exceptions.md R220 to R230,
spec/70_reset_and_hazards.md R245, R252 to R255). `step` does not use this file. Each host operation is a function of what the
transport answers to it; it yields the list of everything the host does, in order, and one outcome. Every response of the block
in it comes from running `Sys2Proof.core`. -/

namespace Sys2Proof.Machine

/-- One thing the host does. -/
inductive HostAction where
  /-- A transaction of the block: the request word and what came back (R220). -/
  | transaction (req : Request) (resp : Response)
  /-- `transmit(address, bytes, timeout)` (R226). -/
  | transmit (address : Byte) (bytes : List Byte) (timeoutMs : Nat)
  /-- `receive(address, byte_count, timeout)` (R226). -/
  | receive (address : Byte) (byteCount : Nat) (timeoutMs : Nat)
  /-- `probe(address, retries, timeout)` (R226). -/
  | probe (address : BitVec 7) (retries : Nat) (timeoutMs : Nat)
  /-- `delay_microseconds(n)` (R255). -/
  | delayMicroseconds (n : Nat)
  /-- No action: the power state the host assumes from here on; `none` where the source states none. -/
  | assumed (p : Option SensorPower)
  deriving DecidableEq, Repr

/-- How a host operation fails: the source's two kinds (R227; spec/90_conflicts.md C3), and a host fault, for two cases that a host
following R222 to R225 never meets: a response that has no place in them (R227: `ILLEGAL`; item 4 of
spec/93_implementation_defined.md: status `0b11`; assumption 13), and a frame of unstated order (R125; assumption 20). -/
inductive HostError where
  | transportFailure
  | integrityFailure
  | hostFault
  deriving DecidableEq, Repr

/-- `ok|error`, the answer of the transport to a `transmit` or a `probe` (R226). -/
inductive Ack where
  | ok
  | error
  deriving DecidableEq, Repr

/-- What a piece of a host operation did, and its value or the error that aborts the rest (R220: "fail-fast"). -/
structure Stage (α : Type) where
  log     : List HostAction
  outcome : Except HostError α
  deriving Repr

/-- A piece that does these actions and succeeds. -/
def stageDo {α : Type} (log : List HostAction) (a : α) : Stage α := { log := log, outcome := .ok a }

/-- A piece that does these actions and fails. -/
def stageFail {α : Type} (log : List HostAction) (e : HostError) : Stage α := { log := log, outcome := .error e }

/-- One piece after another; "any transport failure or checksum failure aborts the remaining steps" (R220). -/
def stageThen {α β : Type} (x : Stage α) (k : α → Stage β) : Stage β :=
  match x.outcome with
  | .error e => stageFail x.log e
  | .ok a => { log := x.log ++ (k a).log, outcome := (k a).outcome }

/-- One transaction: the host presents the request after reset and the block answers it (R49, R244). -/
def transact (req : Request) : Option Response :=
  match Host.Core.run Sys2Proof.core 2 { State.reset with events := [.present req, .deliver] } with
  | .next s => s.response
  | .fault _ => none
  | .refused _ => none

/-- The host's reading of a response: `OK` gives the result, `INTEGRITY` is IntegrityFailure, and anything else is a host fault
(R227). -/
def askBlock (req : Request) : Stage ResultWord :=
  match transact req with
  | none => stageFail [] .hostFault
  | some resp =>
    if resp.status = statusOk then stageDo [.transaction req resp] resp.result
    else if resp.status = statusIntegrity then stageFail [.transaction req resp] .integrityFailure
    else stageFail [.transaction req resp] .hostFault

/-- An action of the transport that is answered `ok` or `error`; an error is a TransportFailure (R227). -/
def busAction (act : HostAction) (reply : Ack) : Stage Unit :=
  match reply with
  | .ok => stageDo [act] ()
  | .error => stageFail [act] .transportFailure

/-- A read: the bytes, or nothing when the transaction fails (R203, R227). -/
def busRead {α : Type} (byteCount : Nat) (reply : Option α) : Stage α :=
  let act := HostAction.receive Config.readAddress byteCount Config.transportTimeoutMs
  match reply with
  | some bytes => stageDo [act] bytes
  | none => stageFail [act] .transportFailure

/-- The bus action of a 16-bit wire code: "exactly 2 bytes", first byte first (R123). -/
def transmitCode (code : Halfword) : HostAction :=
  .transmit Config.writeAddress (serialize code) Config.transportTimeoutMs

/-- The request word of `ENC` for a Command. -/
def encRequest (c : Command) : Request := encode (.enc (commandIndex c))

/-- "Every command byte pair the host transmits is the result of `ENC`" (R220). -/
def sendCommand (c : Command) (reply : Ack) : Stage Unit :=
  stageThen (askBlock (encRequest c)) fun result => busAction (transmitCode (result.setWidth 16)) reply

/-- Wakeup, the wake delay, and the sensor assumed Awake (R221, R222 steps 1 and 2, R230, R252). -/
def wake (p : HostParams) (reply : Ack) : Stage Unit :=
  stageThen (sendCommand .wakeup reply) fun _ =>
    stageDo [.delayMicroseconds (Config.wakeWaitMinUs + p.wakeSlackUs), .assumed (some .awake)] ()

/-- What the transport answers to the calls of Init: the three bytes are there when the read succeeds. -/
structure InitReplies where
  wakeup : Ack
  probe  : Ack
  readID : Ack
  bytes  : Option (Byte × Byte × Byte)
  deriving DecidableEq, Repr

/-- Step 5 and 6 of Init: the read-ID command, the triplet and its check (R222). -/
def readSerial (r : InitReplies) : Stage Halfword :=
  stageThen (sendCommand .readSerialID r.readID) fun _ =>
    stageThen (busRead 3 r.bytes) fun b =>
      stageThen (askBlock (encode (.chk b.1 b.2.1 b.2.2))) fun result =>
        stageDo [] (result.setWidth 16)

/-- Steps 1 to 6 of Init(wantID): a SerialID where one was asked for (R222). -/
def initSteps (p : HostParams) (wantID : Bool) (r : InitReplies) : Stage (Option Halfword) :=
  stageThen (wake p r.wakeup) fun _ =>
    stageThen (busAction (.probe Config.baseAddress p.probeRetries Config.transportTimeoutMs) r.probe) fun _ =>
      if wantID then stageThen (readSerial r) fun id => stageDo [] (some id)
      else stageDo [] none

/-- Init(wantID) (R222). The sensor's state at the start is the host's parameter, Sleeping in the source (R221, R245; item 10 of
spec/93_implementation_defined.md); after an error the source states no power state (item 12). Init never sends Sleep. -/
def hostInit (p : HostParams) (wantID : Bool) (r : InitReplies) : Stage (Option Halfword) :=
  let x := initSteps p wantID r
  match x.outcome with
  | .ok id => stageDo (.assumed (some p.powerAtStart) :: x.log) id
  | .error e => stageFail (.assumed (some p.powerAtStart) :: x.log ++ [.assumed none]) e

/-- A frame of 6 bytes in wire order (R160). -/
structure Frame where
  h0 : Byte
  h1 : Byte
  hc : Byte
  t0 : Byte
  t1 : Byte
  tc : Byte
  deriving DecidableEq, Repr

/-- What the transport answers to the calls of ReadMeasurement. -/
structure MeasurementReplies where
  wakeup  : Ack
  measure : Ack
  frame   : Option Frame
  sleep   : Ack
  deriving DecidableEq, Repr

/-- The two floats of a Measurement with `valid=true`. A Measurement with `valid=false` is the error outcome and has no such
fields, which "must not be read by the caller" (R161; item 1 of spec/93_implementation_defined.md). -/
structure Measurement where
  humidity    : FloatBits
  temperature : FloatBits
  deriving DecidableEq, Repr

/-- The `MEAS` request a host may make of a frame that it read after command `c`. A host may instead take the frame apart
(`decodePieces`); which of the two it does is its parameter `decoding`, the model's choice of form (R223 step 4, R163;
assumption 17). Only the frame read after MeasureHumidityFirst is known to be humidity-first; a host gives no meaning to `MEAS` on
one read after MeasureTemperatureFirst (R125; item 8 of spec/93_implementation_defined.md). -/
def measRequest (c : Command) (f : Frame) : Option Request :=
  match c with
  | .measureHumidityFirst => some (encode (.meas f.h0 f.h1 f.hc f.t0 f.t1 f.tc))
  | .measureTemperatureFirst => none
  | .wakeup => none
  | .sleep => none
  | .softReset => none
  | .readSerialID => none

/-- A frame decoded in one request: humidity in `result[63:32]`, temperature in `result[31:0]` (R161, R223 step 4). -/
def decodeWhole (req : Request) : Stage Measurement :=
  stageThen (askBlock req) fun result =>
    stageDo [] { humidity := result.extractLsb' 32 32, temperature := result.extractLsb' 0 32 }

/-- A humidity-first frame decoded in four requests: two `CHK`, then `HUM` and `TEMP` of the data they pass through (R163, R223
step 4). The order of the four is that of program P4 (assumption 17). -/
def decodePieces (f : Frame) : Stage Measurement :=
  stageThen (askBlock (encode (.chk f.h0 f.h1 f.hc))) fun rawHum =>
    stageThen (askBlock (encode (.chk f.t0 f.t1 f.tc))) fun rawTemp =>
      stageThen (askBlock (encode (.hum (rawHum.setWidth 16)))) fun hum =>
        stageThen (askBlock (encode (.temp (rawTemp.setWidth 16)))) fun temp =>
          stageDo [] { humidity := hum.setWidth 32, temperature := temp.setWidth 32 }

/-- Step 4 of ReadMeasurement, in either of the two ways the rule gives (R223; assumption 17). A frame read after another command
than MeasureHumidityFirst has an order that no source states (R125), and "`refuse`" is all that item 8 of
spec/93_implementation_defined.md says of it. DESIGN CHOICE (assumption 20): the host refuses it in both ways, with no action, and
the outcome is `hostFault`. The controller reads no such frame. -/
def decodeFrame (p : HostParams) (c : Command) (f : Frame) : Stage Measurement :=
  match measRequest c f with
  | none => stageFail [] .hostFault
  | some req =>
    match p.decoding with
    | .oneMeas => decodeWhole req
    | .fourSingles => decodePieces f

/-- Steps 1 to 4 of ReadMeasurement (R223). No delay stands between the command and the read (R254). -/
def measureSteps (p : HostParams) (r : MeasurementReplies) : Stage Measurement :=
  stageThen (wake p r.wakeup) fun _ =>
    stageThen (sendCommand .measureHumidityFirst r.measure) fun _ =>
      stageThen (stageDo [.assumed (some .measuring)] ()) fun _ =>
        stageThen (busRead 6 r.frame) fun f => decodeFrame p .measureHumidityFirst f

/-- ReadMeasurement (R223). On every exit path Sleep is sent, once; its own outcome changes neither the Measurement nor the error
(step 5, R229), and the sensor is assumed Sleeping (R221). -/
def readMeasurement (p : HostParams) (r : MeasurementReplies) : Stage Measurement :=
  let x := measureSteps p r
  { log := .assumed (some p.powerAtStart) :: x.log ++ (sendCommand .sleep r.sleep).log ++ [.assumed (some .sleeping)],
    outcome := x.outcome }

/-- SoftReset (R224), from a sensor assumed in the power state `start`; R221 shows it from Sleeping and from Awake. R224 gives the
state afterwards without regard to the start: the host's parameter, Sleeping in the source. -/
def softReset (p : HostParams) (start : SensorPower) (reply : Ack) : Stage Unit :=
  let x := stageThen (stageDo [.assumed (some start)] ()) fun _ =>
    stageThen (sendCommand .softReset reply) fun _ =>
      stageDo [.delayMicroseconds (Config.resetWaitMinUs + p.resetSlackUs), .assumed (some p.powerAfterReset)] ()
  match x.outcome with
  | .ok _ => x
  | .error e => stageFail (x.log ++ [.assumed none]) e

/-- The power state assumed after an acknowledged Sleep of EnterSleep: from Awake, Sleeping (R221). From any other start "the source
does not give" the result (program P7 of spec/95_test_vectors.md; item 10), and none is assumed (assumption 19). -/
def afterEnterSleep (start : SensorPower) : Option SensorPower :=
  match start with
  | .awake => some .sleeping
  | .sleeping => none
  | .measuring => none

/-- EnterSleep (R225), from a sensor assumed in the power state `start`: "the sleep command only; no delay, no verification". R221
shows it from Awake; program P7 sends it from Sleeping too. -/
def enterSleep (start : SensorPower) (reply : Ack) : Stage Unit :=
  let x := stageThen (stageDo [.assumed (some start)] ()) fun _ =>
    stageThen (sendCommand .sleep reply) fun _ => stageDo [.assumed (afterEnterSleep start)] ()
  match x.outcome with
  | .ok _ => x
  | .error e => stageFail (x.log ++ [.assumed none]) e

/-- The power states that a list of actions passes through, in order (R221). -/
def assumedStates (log : List HostAction) : List (Option SensorPower) :=
  log.filterMap fun act => match act with
    | .assumed power => some power
    | .transaction _ _ => none
    | .transmit _ _ _ => none
    | .receive _ _ _ => none
    | .probe _ _ _ => none
    | .delayMicroseconds _ => none

end Sys2Proof.Machine
end

