-- ==== Sys2Proof/Safety.lean ====
section
/-! DEFINITION. The terms in which claims about the machine are made: the states a run can be in, the response that the spec's
pseudocode gives a request word, the round table, error patterns, and the values of binary32 encodings. No step uses this file. -/

namespace Sys2Proof.Machine

/-! ### States and responses -/

/-- A response the block can give: its status is not `0b11`, and a status other than `OK` comes with a zero result
(R72, R73). -/
def Response.Proper (r : Response) : Prop :=
  r.status ≠ statusReserved ∧ (r.status ≠ statusOk → r.result = 0)

/-- The invariant of the machine: no response exists beside a request in flight (R49, R241), and a response is proper. -/
def State.Inv (s : State) : Prop :=
  (s.inFlight ≠ none → s.response = none) ∧ ∀ r, s.response = some r → r.Proper

/-- The state after the block's turn: the request answered, the event taken, nothing else changed. -/
def State.answered (s : State) (r : Response) : State :=
  { inFlight := none, response := some r, events := s.events.tail }

/-- The state after an operation gives its response: nothing else changed. -/
def State.responded (s : State) (r : Response) : State :=
  { s with inFlight := none, response := some r }

/-- It is the block's turn and `req` is in flight. -/
def State.Answers (s : State) (req : Request) : Prop :=
  nextEvent s = .deliver ∧ s.inFlight = some req

/-- A request word is illegal: the four cases of R69, in their order. -/
abbrev IllegalWord (req : Request) : Prop :=
  (opField req = 0x0 ∨ 0x7 ≤ (opField req).toNat) ∨
  rsvField req ≠ 0 ∨
  (((opField req = 0x1 ∨ opField req = 0x4 ∨ opField req = 0x5) ∧ req.extractLsb' 16 32 ≠ 0) ∨
    (opField req = 0x2 ∧ req.extractLsb' 24 24 ≠ 0) ∨
    (opField req = 0x3 ∧ req.extractLsb' 3 45 ≠ 0)) ∨
  (opField req = 0x3 ∧ (req.extractLsb' 0 3 = 6 ∨ req.extractLsb' 0 3 = 7))

/-- The wire code that R120's table gives an index; zero for the two that name no Command. -/
def wireCodeOf (cmd : CommandIndex) : Halfword :=
  if cmd = 0 then 0x3517
  else if cmd = 1 then 0xB098
  else if cmd = 2 then 0x805D
  else if cmd = 3 then 0xEFC8
  else if cmd = 4 then 0x5C24
  else if cmd = 5 then 0x7CA2
  else 0

/-- The response of every request word, transcribed from the pseudocode of R103, R104, R122, R143, R144 and R161 on the bits of
`req` (with `legal` of R70), without the decoder and without the operations' meanings. -/
def specResponse (req : Request) : Response :=
  if legal req = false then { status := 0b10, result := 0 }
  else if opField req = 0x1 then
    { status := 0b00, result := zext64 (crc8 (req.extractLsb' 8 8) (req.extractLsb' 0 8)) }
  else if opField req = 0x2 then
    if crc8 (req.extractLsb' 16 8) (req.extractLsb' 8 8) = req.extractLsb' 0 8 then
      { status := 0b00, result := zext64 (req.extractLsb' 8 16) }
    else { status := 0b01, result := 0 }
  else if opField req = 0x3 then
    { status := 0b00, result := zext64 (wireCodeOf (req.extractLsb' 0 3)) }
  else if opField req = 0x4 then
    { status := 0b00, result := zext64 (rn32 ((req.extractLsb' 0 16).toNat * 100) 65535) }
  else if opField req = 0x5 then
    { status := 0b00, result := zext64 (rn32 ((req.extractLsb' 0 16).toNat * 175 - 45 * 65535) 65535) }
  else
    if crc8 (req.extractLsb' 40 8) (req.extractLsb' 32 8) = req.extractLsb' 24 8 ∧
        crc8 (req.extractLsb' 16 8) (req.extractLsb' 8 8) = req.extractLsb' 0 8 then
      { status := 0b00,
        result := rn32 ((req.extractLsb' 32 16).toNat * 100) 65535 ++
          rn32 ((req.extractLsb' 8 16).toNat * 175 - 45 * 65535) 65535 }
    else { status := 0b01, result := 0 }

/-! ### The checksum -/

/-- The round table `T` of R108, row by row. -/
def roundTable : List Byte :=
  [0x00, 0x31, 0x62, 0x53, 0xC4, 0xF5, 0xA6, 0x97, 0xB9, 0x88, 0xDB, 0xEA, 0x7D, 0x4C, 0x1F, 0x2E] ++
   [0x43, 0x72, 0x21, 0x10, 0x87, 0xB6, 0xE5, 0xD4, 0xFA, 0xCB, 0x98, 0xA9, 0x3E, 0x0F, 0x5C, 0x6D] ++
   [0x86, 0xB7, 0xE4, 0xD5, 0x42, 0x73, 0x20, 0x11, 0x3F, 0x0E, 0x5D, 0x6C, 0xFB, 0xCA, 0x99, 0xA8] ++
   [0xC5, 0xF4, 0xA7, 0x96, 0x01, 0x30, 0x63, 0x52, 0x7C, 0x4D, 0x1E, 0x2F, 0xB8, 0x89, 0xDA, 0xEB] ++
   [0x3D, 0x0C, 0x5F, 0x6E, 0xF9, 0xC8, 0x9B, 0xAA, 0x84, 0xB5, 0xE6, 0xD7, 0x40, 0x71, 0x22, 0x13] ++
   [0x7E, 0x4F, 0x1C, 0x2D, 0xBA, 0x8B, 0xD8, 0xE9, 0xC7, 0xF6, 0xA5, 0x94, 0x03, 0x32, 0x61, 0x50] ++
   [0xBB, 0x8A, 0xD9, 0xE8, 0x7F, 0x4E, 0x1D, 0x2C, 0x02, 0x33, 0x60, 0x51, 0xC6, 0xF7, 0xA4, 0x95] ++
   [0xF8, 0xC9, 0x9A, 0xAB, 0x3C, 0x0D, 0x5E, 0x6F, 0x41, 0x70, 0x23, 0x12, 0x85, 0xB4, 0xE7, 0xD6] ++
   [0x7A, 0x4B, 0x18, 0x29, 0xBE, 0x8F, 0xDC, 0xED, 0xC3, 0xF2, 0xA1, 0x90, 0x07, 0x36, 0x65, 0x54] ++
   [0x39, 0x08, 0x5B, 0x6A, 0xFD, 0xCC, 0x9F, 0xAE, 0x80, 0xB1, 0xE2, 0xD3, 0x44, 0x75, 0x26, 0x17] ++
   [0xFC, 0xCD, 0x9E, 0xAF, 0x38, 0x09, 0x5A, 0x6B, 0x45, 0x74, 0x27, 0x16, 0x81, 0xB0, 0xE3, 0xD2] ++
   [0xBF, 0x8E, 0xDD, 0xEC, 0x7B, 0x4A, 0x19, 0x28, 0x06, 0x37, 0x64, 0x55, 0xC2, 0xF3, 0xA0, 0x91] ++
   [0x47, 0x76, 0x25, 0x14, 0x83, 0xB2, 0xE1, 0xD0, 0xFE, 0xCF, 0x9C, 0xAD, 0x3A, 0x0B, 0x58, 0x69] ++
   [0x04, 0x35, 0x66, 0x57, 0xC0, 0xF1, 0xA2, 0x93, 0xBD, 0x8C, 0xDF, 0xEE, 0x79, 0x48, 0x1B, 0x2A] ++
   [0xC1, 0xF0, 0xA3, 0x92, 0x05, 0x34, 0x67, 0x56, 0x78, 0x49, 0x1A, 0x2B, 0xBC, 0x8D, 0xDE, 0xEF] ++
   [0x82, 0xB3, 0xE0, 0xD1, 0x46, 0x77, 0x24, 0x15, 0x3B, 0x0A, 0x59, 0x68, 0xFF, 0xCE, 0x9D, 0xAC]

/-- `T[x]` (R108). -/
def tableRound (x : Byte) : Byte := roundTable.getD x.toNat 0

/-- `crc8` of a 16-bit value, short for `crc8(x[15:8], x[7:0])` (R106). -/
def crc8Of (x : Halfword) : Byte := crc8 (firstByte x) (secondByte x)

/-- Whether the triplet `{b0, b1, c}` passes its check (R104, R107). -/
def tripletPasses (t : BitVec 24) : Bool :=
  decide (crc8 (t.extractLsb' 16 8) (t.extractLsb' 8 8) = t.extractLsb' 0 8)

/-- The weight of an error pattern: how many of its bits are 1 (R107). -/
def weight (e : BitVec 24) : Nat := ((List.range 24).filter (fun i => e.getLsbD i)).length

/-- The pattern of the one bit `i`. -/
def oneBit (i : Nat) : BitVec 24 := 1#24 <<< i

/-- All patterns of weight 4, each once: bits `i > j > k > l` of the 24. -/
def weightFourPatterns : List (BitVec 24) :=
  (List.range 24).flatMap fun i => (List.range i).flatMap fun j => (List.range j).flatMap fun k =>
    (List.range k).map fun l => oneBit i ||| oneBit j ||| oneBit k ||| oneBit l

/-! ### The conversions -/

/-- The exact humidity, `raw * 100 / 65535` in the rationals (R140, R142). -/
def exactHum (raw : Halfword) : ℚ := (raw.toNat : ℚ) * 100 / 65535

/-- The exact temperature, `raw * 175 / 65535 - 45` in the rationals (R140, R142). -/
def exactTemp (raw : Halfword) : ℚ := (raw.toNat : ℚ) * 175 / 65535 - 45

/-- The biased exponent field of a binary32 encoding, bits `[30:23]` (R47). -/
def exponentField (b : FloatBits) : Nat := (b.extractLsb' 23 8).toNat

/-- The fraction field of a binary32 encoding, bits `[22:0]` (R47). -/
def fractionField (b : FloatBits) : Nat := (b.extractLsb' 0 23).toNat

/-- The value of a binary32 encoding; none for an infinity or a NaN. -/
def floatValue? (b : FloatBits) : Option ℚ :=
  if exponentField b = 255 then none
  else
    let units : ℚ :=
      if exponentField b = 0 then (fractionField b : ℚ)
      else ((2 ^ 23 + fractionField b : ℕ) : ℚ) * 2 ^ (exponentField b - 1)
    some ((if b.msb then -1 else 1) * units / 2 ^ 149)

/-- `b` encodes the binary32 value nearest to `q`, ties to even (R8: `RN32`): no finite value is nearer, and where another is as
near, the fraction of `b` is even. -/
def NearestEven32 (q : ℚ) (b : FloatBits) : Prop :=
  ∃ v, floatValue? b = some v ∧ ∀ b' v', floatValue? b' = some v' →
    |q - v| ≤ |q - v'| ∧ (v' ≠ v → |q - v| = |q - v'| → b.getLsbD 0 = false)

/-- `b` encodes the one binary32 value nearest to `q`: every other is farther, so that no tie occurs (R142 fact 1). -/
def UniquelyNearest32 (q : ℚ) (b : FloatBits) : Prop :=
  ∃ v, floatValue? b = some v ∧ ∀ b' v', floatValue? b' = some v' → v' ≠ v → |q - v| < |q - v'|

/-- The largest finite binary32 value. -/
def maxFinite32 : ℚ := (2 ^ 24 - 1) * 2 ^ 104

/-- The value of a rounded magnitude in a format, with its sign, as numerator and denominator. -/
def formatValue (f : FloatFormat) (negative : Bool) (magnitude : Nat) : Int × Nat :=
  let scale := 2 ^ (f.precision - 1)
  let exponent := magnitude / scale
  let units := if exponent = 0 then magnitude % scale else (scale + magnitude % scale) * 2 ^ (exponent - 1)
  (if negative then -(units : Int) else units, 2 ^ ((f.precision : Int) - 1 - f.emin).toNat)

/-- `q` rounded once to a format, as a rational again. -/
def roundTo (f : FloatFormat) (q : Int × Nat) : Int × Nat :=
  formatValue f (decide (q.1 < 0)) (magnitudeBits f q.1.natAbs q.2)

/-- Humidity evaluated in a format throughout, the product and the quotient each rounded, then converted once to binary32
(R142 facts 2 and 3). -/
def humEvaluatedIn (f : FloatFormat) (raw : Halfword) : FloatBits :=
  let product := roundTo f ((raw.toNat : Int) * 100, 1)
  let quotient := roundTo f (product.1, product.2 * 65535)
  rn32 quotient.1 quotient.2

/-- Temperature evaluated in a format throughout, the product, the quotient and the difference each rounded, then converted once
to binary32 (R142 facts 2 and 3). -/
def tempEvaluatedIn (f : FloatFormat) (raw : Halfword) : FloatBits :=
  let product := roundTo f ((raw.toNat : Int) * 175, 1)
  let quotient := roundTo f (product.1, product.2 * 65535)
  let difference := roundTo f (quotient.1 - 45 * (quotient.2 : Int), quotient.2)
  rn32 difference.1 difference.2

end Sys2Proof.Machine
end

