-- ==== Sys2Proof/Certificates/Slice0/Obligations.lean ====
section
/-! DEFINITION. The statements for the provers, listed in OBLIGATIONS.json. They state and never prove. -/

open Sys2Proof Sys2Proof.Machine

/-! ### Transactions, reset and the host's duties -/

/-- R241: no response exists after reset; a step leaves one only where it was the block's turn with a request in flight. -/
def Obligations.ResponseExistsOnlyAfterAnswer : Prop :=
  State.reset.response = none ∧
  ∀ s t : State, step s = .next t → t.response ≠ none → ∃ req, s.Answers req

/-- R242: a request in flight at reset is discarded, gets no response however many turns the block takes, and presented again
gives what it would have given. -/
def Obligations.ResetDiscardsTheRequestInFlight : Prop :=
  ∀ (s : State) (req : Request) (rest : List Event), s.inFlight = some req →
    (∀ n : Nat, ∃ t : State,
      Host.Core.run core (n + 1) { s with events := .assertReset :: (List.replicate n .deliver ++ rest) } = .next t ∧
      t.inFlight = none ∧ t.response = none ∧ t.events = rest) ∧
    ∃ t : State, step { s with events := .deliver :: rest } = .next t ∧ t.response ≠ none ∧
      Host.Core.run core 3 { s with events := .assertReset :: .present req :: .deliver :: rest } = .next t

/-- A request is in flight until the response. Changing the word is the host's fault and holding it unchanged leaves it in flight
(R250). That presenting meanwhile is a fault of its own name, also with an equal word, is the model's choice: log entry 6. -/
def Obligations.RequestIsHeldUntilTheResponse : Prop :=
  ∀ (s : State) (held req : Request), s.inFlight = some held →
    (nextEvent s = .present req → step s = .fault .presentedWhileInFlight) ∧
    (nextEvent s = .change req → req ≠ held → step s = .fault .requestChangedInFlight) ∧
    (nextEvent s = .change held → ∃ t, step s = .next t ∧ t.inFlight = some held ∧ t.response = none)

/-- R257 with R256: with LATENCY at any `n` cycles, the request stays in flight with no response for `n` turns, then gets one
response, and the turn after that leaves none. -/
def Obligations.EveryRequestGetsExactlyOneResponse : Prop :=
  ∀ (s : State) (req : Request) (n : Nat) (rest : List Event), s.inFlight = some req →
    s.events = List.replicate n .tick ++ .deliver :: .deliver :: rest →
    (∀ k : Nat, 1 ≤ k → k ≤ n → ∃ t : State, Host.Core.run core k s = .next t ∧
      t.inFlight = some req ∧ t.response = none) ∧
    (∃ (t : State) (r : Response), Host.Core.run core (n + 1) s = .next t ∧
      t = { inFlight := none, response := some r, events := .deliver :: rest }) ∧
    ∃ t : State, Host.Core.run core (n + 2) s = .next t ∧
      t = { inFlight := none, response := none, events := rest }

/-- R20: one function of the request word gives the response in every state. -/
def Obligations.ResponseIsAFunctionOfTheRequest : Prop :=
  ∃ f : Request → Response, ∀ (s : State) (req : Request), s.Answers req → step s = .next (s.answered (f req))

/-- R50: two requests get the same responses in either order, and a request presented twice the same response twice (take both
requests equal). -/
def Obligations.RequestsMayBeRepeatedOrReordered : Prop :=
  ∀ (s : State) (a b : Request) (rest : List Event), s.inFlight = none →
    ∃ ta tb ua ub : State,
      Host.Core.run core 2 { s with events := .present a :: .deliver :: .present b :: .deliver :: rest } = .next ta ∧
      Host.Core.run core 4 { s with events := .present a :: .deliver :: .present b :: .deliver :: rest } = .next tb ∧
      Host.Core.run core 2 { s with events := .present b :: .deliver :: .present a :: .deliver :: rest } = .next ub ∧
      Host.Core.run core 4 { s with events := .present b :: .deliver :: .present a :: .deliver :: rest } = .next ua ∧
      ta.response = ua.response ∧ tb.response = ub.response ∧ ta.response ≠ none ∧ tb.response ≠ none

/-- R200: the block raises no fault and refuses nothing. A step that stops is the host's fault, with a request in flight. Two parts
are the model's choice: that a word changed with nothing in flight never faults (log entry 5), and that presenting with a request
in flight is a fault of its own name (log entry 6). -/
def Obligations.OnlyTheHostFaults : Prop :=
  ∀ s : State, (∀ why, step s ≠ .refused why) ∧
    ∀ f, step s = .fault f → s.inFlight ≠ none ∧
      ((∃ req, nextEvent s = .present req ∧ f = .presentedWhileInFlight) ∨
        ∃ req, nextEvent s = .change req ∧ f = .requestChangedInFlight)

/-- From every state that meets the invariant, a step that answers next gives a state that meets it: no response beside a request
in flight, no status `0b11`, no failing response with a result. -/
def Obligations.StepKeepsTheTransactionInvariant : Prop :=
  ∀ s t : State, s.Inv → step s = .next t → t.Inv

/-- The invariant of `StepKeepsTheTransactionInvariant` at reset. -/
def Obligations.ResetMeetsTheTransactionInvariant : Prop := State.reset.Inv

/-! ### Encoding -/

/-- The decoder and the encoder agree in both directions, with every operand at every value. -/
def Obligations.DecodeAndEncodeAgree : Prop :=
  ∀ (req : Request) (i : Instr), decode req = .instr i ↔ i.wellFormed = true ∧ encode i = req

/-- Words written out from the layouts of R62 to R67 decode to the operations they stand for, and an ill-formed one does not. -/
def Obligations.WrittenWordsDecode : Prop :=
  decode 0x100000000000683A = .instr (.crc8 0x68 0x3A) ∧
  decode 0x2000000000BEEF92 = .instr (.chk 0xBE 0xEF 0x92) ∧
  decode 0x3000000000000005 = .instr (.enc 5) ∧
  decode 0x4000000000008001 = .instr (.hum 0x8001) ∧
  decode 0x50000000000041D4 = .instr (.temp 0x41D4) ∧
  decode 0x60005F4A196E3B96 = .instr (.meas 0x5F 0x4A 0x19 0x6E 0x3B 0x96) ∧
  decode 0x3000000000000006 = .illegal (.noSuchCommand 6)

/-- R69: a word is legal and stands for an operation, or is one of the four cases and gets `(ILLEGAL, 0)`. -/
def Obligations.IllegalWordsAreAnsweredIllegal : Prop :=
  ∀ (s : State) (req : Request), s.Answers req →
    (IllegalWord req → step s = .next (s.answered { status := 0b10, result := 0 })) ∧
    (¬ IllegalWord req → ∃ i, i.wellFormed = true ∧ decode req = .instr i ∧ step s = exec i (popEvent s))

/-- R70: the pseudocode's predicate is the decoder's, a legal word matches exactly one row of the opcode table, and an illegal
word matches none or is an `ENC` word with index 6 or 7. -/
def Obligations.LegalWordsMatchOneTableRow : Prop :=
  ∀ req : Request,
    (legal req = true ↔ ∃ i, decode req = .instr i) ∧
    (∀ i, decode req = .instr i → matchingMnemonics req = [i.mnemonic]) ∧
    (legal req = false → matchingMnemonics req = [] ∨
      matchingMnemonics req = ["ENC"] ∧ (req.extractLsb' 0 3 = 6 ∨ req.extractLsb' 0 3 = 7))

/-- Where it is the block's turn and the request in flight decodes to `i`, the step is `exec` of `i` on the state with the turn's
event taken off the list. -/
def Obligations.StepRunsTheDecodedInstruction : Prop :=
  ∀ (s : State) (req : Request) (i : Instr), s.Answers req → decode req = .instr i →
    step s = exec i { inFlight := s.inFlight, response := s.response, events := s.events.tail }

/-- Every one of the 2^64 request words gets the response that the pseudocode of the six operations gives it. -/
def Obligations.StepAnswersAsThePseudocode : Prop :=
  ∀ (s : State) (req : Request), s.Answers req → step s = .next (s.answered (specResponse req))

/-- The frame of all six operations: each gives one proper response, leaves nothing in flight and the coming events as they
were. The state has no other field. -/
def Obligations.EveryOperationOnlyResponds : Prop :=
  ∀ (i : Instr) (s : State), ∃ r : Response, r.Proper ∧
    exec i s = .next { inFlight := none, response := some r, events := s.events }

/-- R204: `CRC8`, `ENC`, `HUM` and `TEMP` always give `OK` when legal; `INTEGRITY` comes from `CHK` and `MEAS` alone; no legal
operation gives `ILLEGAL`. -/
def Obligations.StatusByOperation : Prop :=
  ∀ (i : Instr) (s t : State) (r : Response), i.wellFormed = true → exec i s = .next t → t.response = some r →
    (i.mnemonic ∈ ["CRC8", "ENC", "HUM", "TEMP"] → r.status = 0b00) ∧
    (r.status = 0b01 → i.mnemonic ∈ ["CHK", "MEAS"]) ∧ r.status ≠ 0b10

/-! ### The checksum -/

/-- R108: eight rounds are the table, and `CRC8` answers `T[T[0xFF ^ b0] ^ b1]`. -/
def Obligations.Crc8AnswersTheTableChecksum : Prop :=
  (∀ x : Byte, crcRounds 8 x = tableRound x) ∧
  ∀ (b0 b1 : Byte) (s : State), exec (.crc8 b0 b1) s =
    .next (s.responded { status := 0b00, result := zext64 (tableRound (tableRound (0xFF ^^^ b0) ^^^ b1)) })

/-- R105: `CHK` passes exactly on the computed checksum, and then gives the data, first byte most significant. -/
def Obligations.ChkAcceptsExactlyTheChecksum : Prop :=
  ∀ (b0 b1 : Byte) (s : State),
    exec (.chk b0 b1 (crc8 b0 b1)) s = .next (s.responded { status := 0b00, result := zext64 (b0 ++ b1) }) ∧
    ∀ c : Byte, c ≠ crc8 b0 b1 →
      exec (.chk b0 b1 c) s = .next (s.responded { status := 0b01, result := 0 })

/-- R106: the checksum is affine. -/
def Obligations.ChecksumIsAffine : Prop :=
  ∀ a b : Halfword, crc8Of a ^^^ crc8Of b = crc8Of (a ^^^ b) ^^^ crc8Of 0x0000 ∧ crc8Of 0x0000 = 0x81

/-- R107: which error patterns a check detects, whatever the data. -/
def Obligations.ErrorDetection : Prop :=
  ∀ t : BitVec 24, tripletPasses t = true →
    (∀ e : BitVec 24,
      (tripletPasses (t ^^^ e) = false ↔ e.extractLsb' 0 8 ≠ crc8Of (e.extractLsb' 8 16) ^^^ 0x81) ∧
      (1 ≤ weight e → weight e ≤ 3 → tripletPasses (t ^^^ e) = false) ∧
      (weight e % 2 = 1 → tripletPasses (t ^^^ e) = false)) ∧
    (weightFourPatterns.filter fun e => tripletPasses (t ^^^ e)).length = 80

/-! ### The command codec -/

/-- R120: the wire code of every command index, and `ILLEGAL` for the two that name no Command. -/
def Obligations.EncAnswersTheWireCode : Prop :=
  ∀ (cmd : CommandIndex) (s : State),
    (cmd.toNat ≤ 5 →
      exec (.enc cmd) s = .next (s.responded { status := 0b00, result := zext64 (wireCodeOf cmd) })) ∧
    (cmd = 6 ∨ cmd = 7 → exec (.enc cmd) s = .next (s.responded { status := 0b10, result := 0 }))

/-- R124: the six wire codes are pairwise distinct and none is zero. -/
def Obligations.EncIsInjective : Prop :=
  ∀ (c d : CommandIndex) (s t u : State), c.toNat ≤ 5 → d.toNat ≤ 5 → exec (.enc c) s = .next t → exec (.enc d) s = .next u →
    (t.response = u.response → c = d) ∧ ∀ r, t.response = some r → r.result ≠ 0

/-! ### The conversions -/

/-- `HUM` answers the one binary32 value nearest to `raw * 100 / 65535`; no tie occurs, and the sign bit is clear.
What an encoding's fields mean is presumed: log entry 16. -/
def Obligations.HumAnswersTheNearestFloat : Prop :=
  ∀ (raw : Halfword) (s : State), ∃ b : FloatBits, b.msb = false ∧ UniquelyNearest32 (exactHum raw) b ∧
    exec (.hum raw) s = .next (s.responded { status := 0b00, result := zext64 b })

/-- `TEMP` answers the one binary32 value nearest to `raw * 175 / 65535 - 45`; no tie occurs, and the sign bit is that of the
exact value. What an encoding's fields mean is presumed: log entry 16. -/
def Obligations.TempAnswersTheNearestFloat : Prop :=
  ∀ (raw : Halfword) (s : State), ∃ b : FloatBits, (b.msb = true ↔ exactTemp raw < 0) ∧
    UniquelyNearest32 (exactTemp raw) b ∧
    exec (.temp raw) s = .next (s.responded { status := 0b00, result := zext64 b })

/-- R8: `rn32` rounds every rational in the finite range to the nearest binary32 value, ties to even. Subnormal results and what an
encoding's fields mean are presumed: log entries 8 and 16. -/
def Obligations.RoundingIsNearestTiesToEven : Prop :=
  ∀ (n : Int) (d : Nat), 0 < d → |(n : ℚ) / (d : ℚ)| ≤ maxFinite32 → NearestEven32 ((n : ℚ) / (d : ℚ)) (rn32 n d)

/-- R145: range, endpoints, strict monotonicity, and where the results are exact, with the table of those.
What an encoding's fields mean is presumed: log entry 16. -/
def Obligations.ConversionRangeAndMonotonicity : Prop :=
  (∃ h t : Halfword → ℚ,
    (∀ raw, floatValue? (humBits raw) = some (h raw) ∧ floatValue? (tempBits raw) = some (t raw)) ∧
    (∀ raw, 0 ≤ h raw ∧ h raw ≤ 100 ∧ -45 ≤ t raw ∧ t raw ≤ 130) ∧
    (h 0 = 0 ∧ h 65535 = 100 ∧ t 0 = -45 ∧ t 65535 = 130) ∧
    (∀ a b : Halfword, a.toNat < b.toNat → h a < h b ∧ t a < t b) ∧
    ∀ raw : Halfword, (h raw = exactHum raw ↔ 13107 ∣ raw.toNat) ∧ (t raw = exactTemp raw ↔ 13107 ∣ raw.toNat)) ∧
  [0x0000, 0x3333, 0x6666, 0x9999, 0xCCCC, 0xFFFF].map (fun raw => (humBits raw, tempBits raw)) =
    [(0x00000000, 0xC2340000), (0x41A00000, 0xC1200000), (0x42200000, 0x41C80000), (0x42700000, 0x42700000),
      (0x42A00000, 0x42BE0000), (0x42C80000, 0x43020000)]

/-- The corner cases of R143 and R144: no NaN, infinity or subnormal; `+0.0` for raw 0; the temperature is never zero and changes
its sign between raw 16851 and raw 16852. That exponent fields 1 to 254 are the normal numbers is presumed: log entry 16. -/
def Obligations.ConversionsGiveNormalNumbers : Prop :=
  ∀ raw : Halfword,
    (raw = 0 → humBits raw = 0x00000000) ∧
    (raw ≠ 0 → 1 ≤ exponentField (humBits raw) ∧ exponentField (humBits raw) ≤ 254 ∧ (humBits raw).msb = false) ∧
    1 ≤ exponentField (tempBits raw) ∧ exponentField (tempBits raw) ≤ 254 ∧
    ((tempBits raw).msb = true ↔ raw.toNat ≤ 16851)

/-- R147: the error is at most half a unit in the last place of the result's binade. The value of an encoding and the unit of its
exponent field are presumed: log entry 16. -/
def Obligations.RoundingErrorIsHalfAnUlp : Prop :=
  ∀ raw : Halfword, ∃ h t : ℚ,
    floatValue? (humBits raw) = some h ∧ |h - exactHum raw| ≤ 2 ^ exponentField (humBits raw) / 2 ^ 151 ∧
    (64 ≤ h → |h - exactHum raw| ≤ 1 / 2 ^ 18) ∧
    floatValue? (tempBits raw) = some t ∧ |t - exactTemp raw| ≤ 2 ^ exponentField (tempBits raw) / 2 ^ 151 ∧
    (128 ≤ t → |t - exactTemp raw| ≤ 1 / 2 ^ 17)

/-- Fact 2 of R142: evaluating the source's expressions in binary64 and converting once to binary32 gives the same results.
The parameters of binary64 are presumed: log entry 16. -/
def Obligations.Binary64EvaluationAgrees : Prop :=
  ∀ raw : Halfword, humEvaluatedIn binary64 raw = humBits raw ∧ tempEvaluatedIn binary64 raw = tempBits raw

/-- Fact 3 of R142, for humidity, and its example for temperature: binary32 throughout agrees on every humidity, not on every
temperature. The parameters of the format are presumed: log entry 16. -/
def Obligations.Binary32EvaluationAgreesForHumidityOnly : Prop :=
  (∀ raw : Halfword, humEvaluatedIn binary32 raw = humBits raw) ∧
  tempBits 327 = 0xC23081D9 ∧ tempEvaluatedIn binary32 327 = 0xC23081D8

/-- The clause of fact 3 of R142 that each temperature evaluated in binary32 throughout is at most one unit in the last place
away. The model's author expects this to fail near zero, where the difference cancels: log entry 14.
The value of an encoding and the parameters of the format are presumed: log entry 16. -/
def Obligations.Binary32TemperatureIsWithinOneUlp : Prop :=
  ∀ raw : Halfword, ∃ a b : ℚ, floatValue? (tempEvaluatedIn binary32 raw) = some a ∧ floatValue? (tempBits raw) = some b ∧
    |a - b| ≤ 2 ^ exponentField (tempBits raw) / 2 ^ 150

/-! ### The measurement frame -/

/-- R161, R162: both checks pass and both values come out, each nearest to its exact value, or the response is
`(INTEGRITY, 0)`. What an encoding's fields mean is presumed: log entry 16. -/
def Obligations.MeasAnswersBothValuesOrIntegrity : Prop :=
  ∀ (h0 h1 hc t0 t1 tc : Byte) (s : State),
    (crc8 h0 h1 = hc ∧ crc8 t0 t1 = tc → ∃ h t : FloatBits,
      h.msb = false ∧ UniquelyNearest32 (exactHum (h0 ++ h1)) h ∧ UniquelyNearest32 (exactTemp (t0 ++ t1)) t ∧
      exec (.meas h0 h1 hc t0 t1 tc) s = .next (s.responded { status := 0b00, result := h ++ t })) ∧
    (¬ (crc8 h0 h1 = hc ∧ crc8 t0 t1 = tc) →
      exec (.meas h0 h1 hc t0 t1 tc) s = .next (s.responded { status := 0b01, result := 0 }))

/-- R163: one `MEAS` is two `CHK`, a `HUM` and a `TEMP`. -/
def Obligations.MeasIsTheFourSingleOperations : Prop :=
  ∀ (h0 h1 hc t0 t1 tc : Byte) (s : State), ∃ m ch ct hum temp : Response,
    exec (.meas h0 h1 hc t0 t1 tc) s = .next (s.responded m) ∧
    exec (.chk h0 h1 hc) s = .next (s.responded ch) ∧ exec (.chk t0 t1 tc) s = .next (s.responded ct) ∧
    exec (.hum (h0 ++ h1)) s = .next (s.responded hum) ∧ exec (.temp (t0 ++ t1)) s = .next (s.responded temp) ∧
    (m.status = 0b00 ↔ ch.status = 0b00 ∧ ct.status = 0b00) ∧
    (m.status = 0b00 → m.result.extractLsb' 32 32 = hum.result.extractLsb' 0 32 ∧
      m.result.extractLsb' 0 32 = temp.result.extractLsb' 0 32) ∧
    (m.status ≠ 0b00 → m = { status := 0b01, result := 0 })

/-! ### The assembler's lines -/

/-- R76: a line whose literals fit assembles to the word of the rule's table with those literals in their fields; each of the six
command names assembles to the `ENC` word of its index, and any other name is refused; a `.word` line gives the word as written; a
literal too wide for its field is refused; and a line that assembles, and is no `.word`, decodes to the operation it writes. (Lines
stand after their words are split: log entry 7.) -/
def Obligations.AssembledLinesDecode : Prop :=
  (∀ b0 b1 : Nat, b0 < 2 ^ 8 → b1 < 2 ^ 8 → assemble (.crc8 b0 b1) =
    some (0x1#4 ++ 0x000#12 ++ 0x00000000#32 ++ BitVec.ofNat 8 b0 ++ BitVec.ofNat 8 b1)) ∧
  (∀ b0 b1 c : Nat, b0 < 2 ^ 8 → b1 < 2 ^ 8 → c < 2 ^ 8 → assemble (.chk b0 b1 c) =
    some (0x2#4 ++ 0x000#12 ++ 0x000000#24 ++ BitVec.ofNat 8 b0 ++ BitVec.ofNat 8 b1 ++ BitVec.ofNat 8 c)) ∧
  (∀ raw : Nat, raw < 2 ^ 16 →
    assemble (.hum raw) = some (0x4#4 ++ 0x000#12 ++ 0x00000000#32 ++ BitVec.ofNat 16 raw) ∧
    assemble (.temp raw) = some (0x5#4 ++ 0x000#12 ++ 0x00000000#32 ++ BitVec.ofNat 16 raw)) ∧
  (∀ h0 h1 hc t0 t1 tc : Nat, h0 < 2 ^ 8 → h1 < 2 ^ 8 → hc < 2 ^ 8 → t0 < 2 ^ 8 → t1 < 2 ^ 8 → tc < 2 ^ 8 →
    assemble (.meas h0 h1 hc t0 t1 tc) = some (0x6#4 ++ 0x000#12 ++ BitVec.ofNat 8 h0 ++ BitVec.ofNat 8 h1 ++
      BitVec.ofNat 8 hc ++ BitVec.ofNat 8 t0 ++ BitVec.ofNat 8 t1 ++ BitVec.ofNat 8 tc)) ∧
  (assemble (.enc "Wakeup") = some 0x3000000000000000 ∧
    assemble (.enc "Sleep") = some 0x3000000000000001 ∧
    assemble (.enc "SoftReset") = some 0x3000000000000002 ∧
    assemble (.enc "ReadSerialID") = some 0x3000000000000003 ∧
    assemble (.enc "MeasureHumidityFirst") = some 0x3000000000000004 ∧
    assemble (.enc "MeasureTemperatureFirst") = some 0x3000000000000005) ∧
  (∀ name : String, name ∉ ["Wakeup", "Sleep", "SoftReset", "ReadSerialID", "MeasureHumidityFirst", "MeasureTemperatureFirst"] →
    assemble (.enc name) = none) ∧
  (∀ w : Nat, w < 2 ^ 64 → assemble (.word w) = some (BitVec.ofNat 64 w)) ∧
  (∀ w : Nat, 2 ^ 64 ≤ w → assemble (.word w) = none) ∧
  (∀ raw : Nat, 2 ^ 16 ≤ raw → assemble (.hum raw) = none ∧ assemble (.temp raw) = none) ∧
  (∀ b0 b1 : Nat, 2 ^ 8 ≤ b0 ∨ 2 ^ 8 ≤ b1 → assemble (.crc8 b0 b1) = none) ∧
  (∀ b0 b1 c : Nat, 2 ^ 8 ≤ b0 ∨ 2 ^ 8 ≤ b1 ∨ 2 ^ 8 ≤ c → assemble (.chk b0 b1 c) = none) ∧
  (∀ h0 h1 hc t0 t1 tc : Nat,
    2 ^ 8 ≤ h0 ∨ 2 ^ 8 ≤ h1 ∨ 2 ^ 8 ≤ hc ∨ 2 ^ 8 ≤ t0 ∨ 2 ^ 8 ≤ t1 ∨ 2 ^ 8 ≤ tc →
    assemble (.meas h0 h1 hc t0 t1 tc) = none) ∧
  ∀ (line : AsmLine) (req : Request), assemble line = some req → (∀ w, line ≠ .word w) →
    ∃ i, asmInstr line = some i ∧ decode req = .instr i

/-! ### The Sensor Controller around the block -/

/-- R229: ReadMeasurement transmits Sleep exactly once on every exit path, and what becomes of that transmission changes no
outcome. -/
def Obligations.ReadMeasurementSleepsExactlyOnce : Prop :=
  ∀ (p : HostParams) (r : MeasurementReplies),
    ((readMeasurement p r).log.filter fun a => decide (a = .transmit 0xE0 [0xB0, 0x98] 1000)).length = 1 ∧
    ∀ ack : Ack, (readMeasurement p { r with sleep := ack }).outcome = (readMeasurement p r).outcome

/-- Steps 1 to 6 of R223: the outcome of ReadMeasurement for everything the transport can answer, whether the host decodes the frame
by one `MEAS` or by the four single operations (log entry 17). -/
def Obligations.ReadMeasurementOutcome : Prop :=
  ∀ (p : HostParams) (r : MeasurementReplies),
    (r.wakeup = .error ∨ r.measure = .error ∨ r.frame = none →
      (readMeasurement p r).outcome = .error .transportFailure) ∧
    ∀ f : Frame, r.wakeup = .ok → r.measure = .ok → r.frame = some f →
      (crc8 f.h0 f.h1 = f.hc ∧ crc8 f.t0 f.t1 = f.tc → (readMeasurement p r).outcome =
        .ok { humidity := humBits (f.h0 ++ f.h1), temperature := tempBits (f.t0 ++ f.t1) }) ∧
      (¬ (crc8 f.h0 f.h1 = f.hc ∧ crc8 f.t0 f.t1 = f.tc) → (readMeasurement p r).outcome = .error .integrityFailure)

/-- R222: the outcome of Init; a failing probe means that no read-ID command is sent; and Init never sends Sleep. -/
def Obligations.InitOutcome : Prop :=
  ∀ (p : HostParams) (wantID : Bool) (r : InitReplies),
    (r.wakeup = .error ∨ r.probe = .error → (hostInit p wantID r).outcome = .error .transportFailure ∧
      ∀ ms, HostAction.transmit 0xE0 [0xEF, 0xC8] ms ∉ (hostInit p wantID r).log) ∧
    (r.wakeup = .ok → r.probe = .ok →
      (wantID = false → (hostInit p wantID r).outcome = .ok none) ∧
      (wantID = true → r.readID = .error ∨ r.bytes = none →
        (hostInit p wantID r).outcome = .error .transportFailure) ∧
      ∀ b0 b1 c : Byte, wantID = true → r.readID = .ok → r.bytes = some (b0, b1, c) →
        (c = crc8 b0 b1 → (hostInit p wantID r).outcome = .ok (some (b0 ++ b1))) ∧
        (c ≠ crc8 b0 b1 → (hostInit p wantID r).outcome = .error .integrityFailure)) ∧
    ∀ ms, HostAction.transmit 0xE0 [0xB0, 0x98] ms ∉ (hostInit p wantID r).log

/-- R252, R253: after the Wakeup of ReadMeasurement and Init the very next thing on the bus side is a wait of at least 40
microseconds, and after SoftReset one of at least 500. -/
def Obligations.TheHostWaitsLongEnough : Prop :=
  ∀ p : HostParams,
    (∀ r : MeasurementReplies, r.wakeup = .ok → ∃ a resp n rest, 40 ≤ n ∧ (readMeasurement p r).log =
      a :: .transaction 0x3000000000000000 resp :: .transmit 0xE0 [0x35, 0x17] 1000 :: .delayMicroseconds n :: rest) ∧
    (∀ (wantID : Bool) (r : InitReplies), r.wakeup = .ok → ∃ a resp n rest, 40 ≤ n ∧ (hostInit p wantID r).log =
      a :: .transaction 0x3000000000000000 resp :: .transmit 0xE0 [0x35, 0x17] 1000 :: .delayMicroseconds n :: rest) ∧
    ∀ start : SensorPower, ∃ a resp n rest, 500 ≤ n ∧ (softReset p start .ok).log =
      a :: .transaction 0x3000000000000002 resp :: .transmit 0xE0 [0x80, 0x5D] 1000 :: .delayMicroseconds n :: rest

/-- R227: a host that follows R222 to R225 never meets a response that is a host fault. -/
def Obligations.TheControllerNeverHostFaults : Prop :=
  ∀ p : HostParams,
    (∀ r, (readMeasurement p r).outcome ≠ .error .hostFault) ∧
    (∀ wantID r, (hostInit p wantID r).outcome ≠ .error .hostFault) ∧
    (∀ start ack, (softReset p start ack).outcome ≠ .error .hostFault) ∧
    ∀ start ack, (enterSleep start ack).outcome ≠ .error .hostFault

/-- R221: the power states that the host assumes, from start to end. The start of Init and ReadMeasurement and the state after
SoftReset are the host's parameters, with Sleeping as the source's assumption (log entry 19). A ReadMeasurement ends in Sleeping on
every path; a successful one passes through Awake and Measuring. SoftReset starts from Sleeping or Awake and EnterSleep from
Awake. -/
def Obligations.AssumedPowerStates : Prop :=
  ∀ p : HostParams,
    (∀ wantID r id, (hostInit p wantID r).outcome = .ok id →
      assumedStates (hostInit p wantID r).log = [some p.powerAtStart, some .awake]) ∧
    (∀ r m, (readMeasurement p r).outcome = .ok m →
      assumedStates (readMeasurement p r).log = [some p.powerAtStart, some .awake, some .measuring, some .sleeping]) ∧
    (∀ r, (assumedStates (readMeasurement p r).log).head? = some (some p.powerAtStart) ∧
      (assumedStates (readMeasurement p r).log).getLast? = some (some .sleeping)) ∧
    (∀ start ∈ [SensorPower.sleeping, .awake], (softReset p start .ok).outcome = .ok () ∧
      assumedStates (softReset p start .ok).log = [some start, some p.powerAfterReset]) ∧
    (enterSleep .awake .ok).outcome = .ok () ∧
    assumedStates (enterSleep .awake .ok).log = [some .awake, some .sleeping]
end

