-- ==== Sys2Proof/Laws/Assembler.lean ====
section
/-! SUPPORT. What reading a literal and a command name gives (spec/30_encoding.md R76). -/

namespace Sys2Proof.Laws

open Sys2Proof.Machine

/-- A literal that fits its field is read as its number. -/
theorem literal_fits {width v : Nat} (h : v < 2 ^ width) : literal width v = some (BitVec.ofNat width v) := if_pos h

/-- A literal too wide for its field is refused. -/
theorem literal_wide {width v : Nat} (h : 2 ^ width ≤ v) : literal width v = none := if_neg (Nat.not_lt.mpr h)

/-- Every Command is read from its own name. -/
theorem commandOfName_commandName (c : Command) : commandOfName (commandName c) = some c := by
  cases c <;> decide

end Sys2Proof.Laws
end

