-- ==== Sys2Proof/Laws/Encoding.lean ====
section
/-! SUPPORT. What each field of an encoded operation reads (spec/30_encoding.md R60 to R67, R76): the lemmas of `encode` and of
the field functions of Machine/Operands.lean, so that neither is unfolded again. The rewriting lemma for a field of a
concatenation is used by `rw`, since the width 64 of a request word hides the sum of the parts' widths from `simp`. -/

namespace Sys2Proof.Laws

open Sys2Proof.Machine

@[simp] theorem opField_encode_crc8 (b0 b1 : Byte) :
    opField (encode (.crc8 b0 b1)) = 1 := by
  unfold encode opField
  rw [BitVec.extractLsb'_append_eq_of_le (by decide),
    BitVec.extractLsb'_append_eq_of_le (by decide),
    BitVec.extractLsb'_append_eq_of_le (by decide),
    BitVec.extractLsb'_append_eq_of_le (by decide)]
  simp

@[simp] theorem rsvField_encode_crc8 (b0 b1 : Byte) :
    rsvField (encode (.crc8 b0 b1)) = 0 := by
  unfold encode rsvField
  rw [BitVec.extractLsb'_append_eq_of_le (by decide),
    BitVec.extractLsb'_append_eq_of_le (by decide),
    BitVec.extractLsb'_append_eq_of_le (by decide),
    BitVec.extractLsb'_append_eq_of_add_le (by decide)]
  simp

@[simp] theorem unusedAbove16_encode_crc8 (b0 b1 : Byte) :
    unusedAbove16 (encode (.crc8 b0 b1)) = 0 := by
  unfold encode unusedAbove16
  rw [BitVec.extractLsb'_append_eq_of_le (by decide),
    BitVec.extractLsb'_append_eq_of_le (by decide),
    BitVec.extractLsb'_append_eq_of_add_le (by decide)]
  simp

@[simp] theorem byteField_encode_crc8_b0 (b0 b1 : Byte) :
    byteField (encode (.crc8 b0 b1)) 8 = b0 := by
  unfold encode byteField
  rw [BitVec.extractLsb'_append_eq_of_le (by decide),
    BitVec.extractLsb'_append_eq_of_add_le (by decide)]
  simp

@[simp] theorem byteField_encode_crc8_b1 (b0 b1 : Byte) :
    byteField (encode (.crc8 b0 b1)) 0 = b1 := by
  unfold encode byteField
  rw [BitVec.extractLsb'_append_eq_of_add_le (by decide)]
  simp

@[simp] theorem opField_encode_chk (b0 b1 c : Byte) :
    opField (encode (.chk b0 b1 c)) = 2 := by
  unfold encode opField
  rw [BitVec.extractLsb'_append_eq_of_le (by decide),
    BitVec.extractLsb'_append_eq_of_le (by decide),
    BitVec.extractLsb'_append_eq_of_le (by decide),
    BitVec.extractLsb'_append_eq_of_le (by decide),
    BitVec.extractLsb'_append_eq_of_le (by decide)]
  simp

@[simp] theorem rsvField_encode_chk (b0 b1 c : Byte) :
    rsvField (encode (.chk b0 b1 c)) = 0 := by
  unfold encode rsvField
  rw [BitVec.extractLsb'_append_eq_of_le (by decide),
    BitVec.extractLsb'_append_eq_of_le (by decide),
    BitVec.extractLsb'_append_eq_of_le (by decide),
    BitVec.extractLsb'_append_eq_of_le (by decide),
    BitVec.extractLsb'_append_eq_of_add_le (by decide)]
  simp

@[simp] theorem unusedAbove24_encode_chk (b0 b1 c : Byte) :
    unusedAbove24 (encode (.chk b0 b1 c)) = 0 := by
  unfold encode unusedAbove24
  rw [BitVec.extractLsb'_append_eq_of_le (by decide),
    BitVec.extractLsb'_append_eq_of_le (by decide),
    BitVec.extractLsb'_append_eq_of_le (by decide),
    BitVec.extractLsb'_append_eq_of_add_le (by decide)]
  simp

@[simp] theorem byteField_encode_chk_b0 (b0 b1 c : Byte) :
    byteField (encode (.chk b0 b1 c)) 16 = b0 := by
  unfold encode byteField
  rw [BitVec.extractLsb'_append_eq_of_le (by decide),
    BitVec.extractLsb'_append_eq_of_le (by decide),
    BitVec.extractLsb'_append_eq_of_add_le (by decide)]
  simp

@[simp] theorem byteField_encode_chk_b1 (b0 b1 c : Byte) :
    byteField (encode (.chk b0 b1 c)) 8 = b1 := by
  unfold encode byteField
  rw [BitVec.extractLsb'_append_eq_of_le (by decide),
    BitVec.extractLsb'_append_eq_of_add_le (by decide)]
  simp

@[simp] theorem byteField_encode_chk_c (b0 b1 c : Byte) :
    byteField (encode (.chk b0 b1 c)) 0 = c := by
  unfold encode byteField
  rw [BitVec.extractLsb'_append_eq_of_add_le (by decide)]
  simp

@[simp] theorem opField_encode_enc (cmd : CommandIndex) :
    opField (encode (.enc cmd)) = 3 := by
  unfold encode opField
  rw [BitVec.extractLsb'_append_eq_of_le (by decide),
    BitVec.extractLsb'_append_eq_of_le (by decide),
    BitVec.extractLsb'_append_eq_of_le (by decide)]
  simp

@[simp] theorem rsvField_encode_enc (cmd : CommandIndex) :
    rsvField (encode (.enc cmd)) = 0 := by
  unfold encode rsvField
  rw [BitVec.extractLsb'_append_eq_of_le (by decide),
    BitVec.extractLsb'_append_eq_of_le (by decide),
    BitVec.extractLsb'_append_eq_of_add_le (by decide)]
  simp

@[simp] theorem unusedAbove3_encode_enc (cmd : CommandIndex) :
    unusedAbove3 (encode (.enc cmd)) = 0 := by
  unfold encode unusedAbove3
  rw [BitVec.extractLsb'_append_eq_of_le (by decide),
    BitVec.extractLsb'_append_eq_of_add_le (by decide)]
  simp

@[simp] theorem cmdField_encode_enc (cmd : CommandIndex) :
    cmdField (encode (.enc cmd)) = cmd := by
  unfold encode cmdField
  rw [BitVec.extractLsb'_append_eq_of_add_le (by decide)]
  simp

@[simp] theorem opField_encode_hum (raw : Halfword) :
    opField (encode (.hum raw)) = 4 := by
  unfold encode opField
  rw [BitVec.extractLsb'_append_eq_of_le (by decide),
    BitVec.extractLsb'_append_eq_of_le (by decide),
    BitVec.extractLsb'_append_eq_of_le (by decide)]
  simp

@[simp] theorem rsvField_encode_hum (raw : Halfword) :
    rsvField (encode (.hum raw)) = 0 := by
  unfold encode rsvField
  rw [BitVec.extractLsb'_append_eq_of_le (by decide),
    BitVec.extractLsb'_append_eq_of_le (by decide),
    BitVec.extractLsb'_append_eq_of_add_le (by decide)]
  simp

@[simp] theorem unusedAbove16_encode_hum (raw : Halfword) :
    unusedAbove16 (encode (.hum raw)) = 0 := by
  unfold encode unusedAbove16
  rw [BitVec.extractLsb'_append_eq_of_le (by decide),
    BitVec.extractLsb'_append_eq_of_add_le (by decide)]
  simp

@[simp] theorem rawField_encode_hum (raw : Halfword) :
    rawField (encode (.hum raw)) = raw := by
  unfold encode rawField
  rw [BitVec.extractLsb'_append_eq_of_add_le (by decide)]
  simp

@[simp] theorem opField_encode_temp (raw : Halfword) :
    opField (encode (.temp raw)) = 5 := by
  unfold encode opField
  rw [BitVec.extractLsb'_append_eq_of_le (by decide),
    BitVec.extractLsb'_append_eq_of_le (by decide),
    BitVec.extractLsb'_append_eq_of_le (by decide)]
  simp

@[simp] theorem rsvField_encode_temp (raw : Halfword) :
    rsvField (encode (.temp raw)) = 0 := by
  unfold encode rsvField
  rw [BitVec.extractLsb'_append_eq_of_le (by decide),
    BitVec.extractLsb'_append_eq_of_le (by decide),
    BitVec.extractLsb'_append_eq_of_add_le (by decide)]
  simp

@[simp] theorem unusedAbove16_encode_temp (raw : Halfword) :
    unusedAbove16 (encode (.temp raw)) = 0 := by
  unfold encode unusedAbove16
  rw [BitVec.extractLsb'_append_eq_of_le (by decide),
    BitVec.extractLsb'_append_eq_of_add_le (by decide)]
  simp

@[simp] theorem rawField_encode_temp (raw : Halfword) :
    rawField (encode (.temp raw)) = raw := by
  unfold encode rawField
  rw [BitVec.extractLsb'_append_eq_of_add_le (by decide)]
  simp

@[simp] theorem opField_encode_meas (h0 h1 hc t0 t1 tc : Byte) :
    opField (encode (.meas h0 h1 hc t0 t1 tc)) = 6 := by
  unfold encode opField
  rw [BitVec.extractLsb'_append_eq_of_le (by decide),
    BitVec.extractLsb'_append_eq_of_le (by decide),
    BitVec.extractLsb'_append_eq_of_le (by decide),
    BitVec.extractLsb'_append_eq_of_le (by decide),
    BitVec.extractLsb'_append_eq_of_le (by decide),
    BitVec.extractLsb'_append_eq_of_le (by decide),
    BitVec.extractLsb'_append_eq_of_le (by decide)]
  simp

@[simp] theorem rsvField_encode_meas (h0 h1 hc t0 t1 tc : Byte) :
    rsvField (encode (.meas h0 h1 hc t0 t1 tc)) = 0 := by
  unfold encode rsvField
  rw [BitVec.extractLsb'_append_eq_of_le (by decide),
    BitVec.extractLsb'_append_eq_of_le (by decide),
    BitVec.extractLsb'_append_eq_of_le (by decide),
    BitVec.extractLsb'_append_eq_of_le (by decide),
    BitVec.extractLsb'_append_eq_of_le (by decide),
    BitVec.extractLsb'_append_eq_of_le (by decide),
    BitVec.extractLsb'_append_eq_of_add_le (by decide)]
  simp

@[simp] theorem byteField_encode_meas_h0 (h0 h1 hc t0 t1 tc : Byte) :
    byteField (encode (.meas h0 h1 hc t0 t1 tc)) 40 = h0 := by
  unfold encode byteField
  rw [BitVec.extractLsb'_append_eq_of_le (by decide),
    BitVec.extractLsb'_append_eq_of_le (by decide),
    BitVec.extractLsb'_append_eq_of_le (by decide),
    BitVec.extractLsb'_append_eq_of_le (by decide),
    BitVec.extractLsb'_append_eq_of_le (by decide),
    BitVec.extractLsb'_append_eq_of_add_le (by decide)]
  simp

@[simp] theorem byteField_encode_meas_h1 (h0 h1 hc t0 t1 tc : Byte) :
    byteField (encode (.meas h0 h1 hc t0 t1 tc)) 32 = h1 := by
  unfold encode byteField
  rw [BitVec.extractLsb'_append_eq_of_le (by decide),
    BitVec.extractLsb'_append_eq_of_le (by decide),
    BitVec.extractLsb'_append_eq_of_le (by decide),
    BitVec.extractLsb'_append_eq_of_le (by decide),
    BitVec.extractLsb'_append_eq_of_add_le (by decide)]
  simp

@[simp] theorem byteField_encode_meas_hc (h0 h1 hc t0 t1 tc : Byte) :
    byteField (encode (.meas h0 h1 hc t0 t1 tc)) 24 = hc := by
  unfold encode byteField
  rw [BitVec.extractLsb'_append_eq_of_le (by decide),
    BitVec.extractLsb'_append_eq_of_le (by decide),
    BitVec.extractLsb'_append_eq_of_le (by decide),
    BitVec.extractLsb'_append_eq_of_add_le (by decide)]
  simp

@[simp] theorem byteField_encode_meas_t0 (h0 h1 hc t0 t1 tc : Byte) :
    byteField (encode (.meas h0 h1 hc t0 t1 tc)) 16 = t0 := by
  unfold encode byteField
  rw [BitVec.extractLsb'_append_eq_of_le (by decide),
    BitVec.extractLsb'_append_eq_of_le (by decide),
    BitVec.extractLsb'_append_eq_of_add_le (by decide)]
  simp

@[simp] theorem byteField_encode_meas_t1 (h0 h1 hc t0 t1 tc : Byte) :
    byteField (encode (.meas h0 h1 hc t0 t1 tc)) 8 = t1 := by
  unfold encode byteField
  rw [BitVec.extractLsb'_append_eq_of_le (by decide),
    BitVec.extractLsb'_append_eq_of_add_le (by decide)]
  simp

@[simp] theorem byteField_encode_meas_tc (h0 h1 hc t0 t1 tc : Byte) :
    byteField (encode (.meas h0 h1 hc t0 t1 tc)) 0 = tc := by
  unfold encode byteField
  rw [BitVec.extractLsb'_append_eq_of_add_le (by decide)]
  simp

end Sys2Proof.Laws
end

