-- ==== Sys2Proof/Laws/State.lean ====
section
/-! SUPPORT. One lemma for each field of `State` under each update of the model, so that no proof unfolds a record update, and
the fields of the state after reset. -/

namespace Sys2Proof.Laws

open Sys2Proof.Machine

@[simp] theorem reset_inFlight : State.reset.inFlight = none := rfl
@[simp] theorem reset_response : State.reset.response = none := rfl
@[simp] theorem reset_events : State.reset.events = [] := rfl

@[simp] theorem popEvent_inFlight (s : State) : (popEvent s).inFlight = s.inFlight := rfl
@[simp] theorem popEvent_response (s : State) : (popEvent s).response = s.response := rfl
@[simp] theorem popEvent_events (s : State) : (popEvent s).events = s.events.tail := rfl

@[simp] theorem responded_inFlight (s : State) (r : Response) : (s.responded r).inFlight = none := rfl
@[simp] theorem responded_response (s : State) (r : Response) : (s.responded r).response = some r := rfl
@[simp] theorem responded_events (s : State) (r : Response) : (s.responded r).events = s.events := rfl

@[simp] theorem answered_inFlight (s : State) (r : Response) : (s.answered r).inFlight = none := rfl
@[simp] theorem answered_response (s : State) (r : Response) : (s.answered r).response = some r := rfl
@[simp] theorem answered_events (s : State) (r : Response) : (s.answered r).events = s.events.tail := rfl

/-- Answering after the event is taken is the answered state. -/
@[simp] theorem responded_popEvent (s : State) (r : Response) : (popEvent s).responded r = s.answered r := rfl

@[simp] theorem withFetchWord_inFlight (s : State) (nbits w : Nat) :
    (s.withFetchWord nbits w).inFlight = some (tableWord nbits w) := rfl
@[simp] theorem withFetchWord_response (s : State) (nbits w : Nat) :
    (s.withFetchWord nbits w).response = s.response := rfl
@[simp] theorem withFetchWord_events (s : State) (nbits w : Nat) :
    (s.withFetchWord nbits w).events = .deliver :: s.events := rfl

@[simp] theorem nextEvent_nil (s : State) (h : s.events = []) : nextEvent s = .deliver := by
  simp [nextEvent, h]

@[simp] theorem nextEvent_cons (s : State) (e : Event) (rest : List Event) (h : s.events = e :: rest) :
    nextEvent s = e := by
  simp [nextEvent, h]

end Sys2Proof.Laws
end

