-- ==== Sys2Proof/Laws/Ops.lean ====
section
/-! SUPPORT. What each shared operation can do, said once: cited in the place of unfolding it. -/

namespace Sys2Proof.Laws

open Sys2Proof.Machine

/-- `respond` always answers next, with the response and nothing else changed. -/
theorem respond_eq (status : StatusCode) (result : ResultWord) (s : State) :
    respond status result s = .next (s.responded { status := status, result := result }) := rfl

theorem raiseIllegalRequest_eq (s : State) :
    raiseIllegalRequest s = .next (s.responded { status := statusIllegal, result := 0 }) := rfl

theorem raiseIntegrityFailure_eq (s : State) :
    raiseIntegrityFailure s = .next (s.responded { status := statusIntegrity, result := 0 }) := rfl

theorem quietTurn_eq (s : State) : quietTurn s = .next { s with response := none } := rfl

theorem assertReset_eq (s : State) : assertReset s = .next { s with inFlight := none, response := none } := rfl

/-- Presenting with nothing in flight puts the request in flight. -/
theorem present_idle (req : Request) (s : State) (h : s.inFlight = none) :
    present req s = .next { s with inFlight := some req, response := none } := by
  simp [present, h]

/-- Presenting with a request in flight is the host's fault. -/
theorem present_busy (req held : Request) (s : State) (h : s.inFlight = some held) :
    present req s = .fault .presentedWhileInFlight := by
  simp [present, h]

/-- All that presenting can do when it answers next. -/
theorem present_next {req : Request} {s t : State} (h : present req s = .next t) :
    s.inFlight = none ∧ t = { s with inFlight := some req, response := none } := by
  unfold present at h
  split at h
  · exact ⟨by assumption, by cases h; rfl⟩
  · cases h

/-- All that driving a word on the held one can do when it answers next: nothing changes but that no response is left. -/
theorem change_next {req : Request} {s t : State} (h : change req s = .next t) :
    (s.inFlight = none ∨ s.inFlight = some req) ∧ t = { s with response := none } := by
  unfold change at h
  split at h
  · exact ⟨.inl (by assumption), by cases h; rfl⟩
  · rename_i held hheld
    split at h
    · rename_i heq
      exact ⟨.inr (by rw [hheld, heq]), by cases h; rfl⟩
    · cases h

/-- A command index has a wire code exactly when it is one of the six. -/
theorem romLookup_isSome (cmd : CommandIndex) : (romLookup cmd).isSome = commandIndexOk cmd := by
  revert cmd; decide

/-- The two bytes of a 16-bit value, put together again, are the value (R45: "no byte swap occurs anywhere"). -/
theorem halfwordOf_bytes (v : Halfword) : halfwordOf (firstByte v) (secondByte v) = v := by
  simp only [halfwordOf, firstByte, secondByte]
  exact BitVec.extractLsb'_append_extractLsb'_eq_extractLsb' (x := v) (by decide) |>.trans (by simp)

/-- One round, by the accumulator's top bit. -/
theorem crcRound_eq (acc : Byte) : crcRound acc = if acc.msb then (acc <<< 1) ^^^ polynomial else acc <<< 1 := by
  revert acc; decide +kernel

/-- The checksum as two bytes folded into the seed. -/
theorem crc8_eq (b0 b1 : Byte) : crc8 b0 b1 = crcByte (crcByte seed b0) b1 := rfl

/-- The check passes exactly when the checksums are equal. -/
theorem checksumPasses_iff (b0 b1 c : Byte) : checksumPasses b0 b1 c = true ↔ crc8 b0 b1 = c := by
  simp [checksumPasses]

/-- All that `decodeWhenZero` can answer. -/
theorem decodeWhenZero_instr {n : Nat} {unused : BitVec n} {i j : Instr} (h : decodeWhenZero unused i = .instr j) :
    unused = 0 ∧ i = j := by
  unfold decodeWhenZero at h
  split at h
  · exact ⟨by assumption, by cases h; rfl⟩
  · cases h

end Sys2Proof.Laws
end

