-- ==== Sys2Proof/Laws/Step.lean ====
section
/-! SUPPORT. What one step can do, by the event it takes: cited in the place of unfolding `step`. -/

namespace Sys2Proof.Laws

open Sys2Proof.Machine

theorem step_present {s : State} {req : Request} (h : nextEvent s = .present req) :
    step s = present req (popEvent s) := by
  simp [step, turn, h]

theorem step_change {s : State} {req : Request} (h : nextEvent s = .change req) :
    step s = change req (popEvent s) := by
  simp [step, turn, h]

theorem step_assertReset {s : State} (h : nextEvent s = .assertReset) :
    step s = .next { inFlight := none, response := none, events := s.events.tail } := by
  simp [step, turn, h, assertReset_eq]

theorem step_tick {s : State} (h : nextEvent s = .tick) :
    step s = .next { inFlight := s.inFlight, response := none, events := s.events.tail } := by
  simp [step, turn, h, quietTurn_eq]

theorem step_deliver_idle {s : State} (h : nextEvent s = .deliver) (hi : s.inFlight = none) :
    step s = .next { inFlight := none, response := none, events := s.events.tail } := by
  simp [step, turn, h, blockTurn, hi, quietTurn_eq]

theorem step_deliver_answers {s : State} {req : Request} (h : s.Answers req) :
    step s = answer req (popEvent s) := by
  obtain ⟨he, hi⟩ := h
  simp [step, turn, he, blockTurn, hi]

/-- All that a step can do when it answers next, event by event. -/
theorem step_next {s t : State} (h : step s = .next t) :
    (∃ req, nextEvent s = .present req ∧ s.inFlight = none ∧
      t = { inFlight := some req, response := none, events := s.events.tail }) ∨
    (∃ req, nextEvent s = .change req ∧
      t = { inFlight := s.inFlight, response := none, events := s.events.tail }) ∨
    (nextEvent s = .assertReset ∧ t = { inFlight := none, response := none, events := s.events.tail }) ∨
    (nextEvent s = .tick ∧ t = { inFlight := s.inFlight, response := none, events := s.events.tail }) ∨
    (nextEvent s = .deliver ∧ s.inFlight = none ∧
      t = { inFlight := none, response := none, events := s.events.tail }) ∨
    (∃ req, s.Answers req ∧ answer req (popEvent s) = .next t) := by
  cases he : nextEvent s with
  | present req =>
    rw [step_present he] at h
    obtain ⟨hi, rfl⟩ := present_next h
    exact .inl ⟨req, rfl, hi, rfl⟩
  | change req =>
    rw [step_change he] at h
    obtain ⟨-, rfl⟩ := change_next h
    exact .inr (.inl ⟨req, rfl, rfl⟩)
  | assertReset =>
    rw [step_assertReset he] at h
    cases h
    exact .inr (.inr (.inl ⟨rfl, rfl⟩))
  | tick =>
    rw [step_tick he] at h
    cases h
    exact .inr (.inr (.inr (.inl ⟨rfl, rfl⟩)))
  | deliver =>
    cases hi : s.inFlight with
    | none =>
      rw [step_deliver_idle he hi] at h
      cases h
      exact .inr (.inr (.inr (.inr (.inl ⟨rfl, rfl, rfl⟩))))
    | some req =>
      rw [step_deliver_answers ⟨he, hi⟩] at h
      exact .inr (.inr (.inr (.inr (.inr ⟨req, ⟨he, hi⟩, h⟩))))

end Sys2Proof.Laws
end

