-- ==== Sys2Proof/Laws/Controller.lean ====
section
/-! SUPPORT. The sequencing of the host's pieces, and one transaction as one step of the block. -/

namespace Sys2Proof.Laws

open Sys2Proof.Machine

/-- After a piece that succeeds, the next piece runs and both logs stand in order. -/
theorem stageThen_ok {α β : Type} (x : Stage α) (k : α → Stage β) (a : α) (h : x.outcome = .ok a) :
    stageThen x k = { log := x.log ++ (k a).log, outcome := (k a).outcome } := by
  simp [stageThen, h]

/-- After a piece that fails, nothing more is done and the error is the outcome (R220). -/
theorem stageThen_error {α β : Type} (x : Stage α) (k : α → Stage β) (e : HostError) (h : x.outcome = .error e) :
    stageThen x k = stageFail x.log e := by
  simp [stageThen, h]

/-- One transaction is one answer of the block to a request in flight with nothing left to come. -/
theorem transact_eq (req : Request) :
    transact req = match answer req { inFlight := some req, response := none, events := [] } with
      | .next s => s.response
      | .fault _ => none
      | .refused _ => none := by
  simp only [transact, Host.Core.run, core, step, nextEvent,
    popEvent, turn, present, blockTurn, State.reset, List.headD_cons, List.tail_cons]
  cases answer req { inFlight := some req, response := none, events := [] } <;> rfl

/-- A response `OK` gives its result. -/
theorem askBlock_ok {req : Request} {w : ResultWord} (h : transact req = some { status := statusOk, result := w }) :
    askBlock req = stageDo [.transaction req { status := statusOk, result := w }] w := by
  simp [askBlock, h]

/-- A response `INTEGRITY` is an IntegrityFailure. -/
theorem askBlock_integrity {req : Request} {w : ResultWord}
    (h : transact req = some { status := statusIntegrity, result := w }) :
    askBlock req = stageFail [.transaction req { status := statusIntegrity, result := w }] .integrityFailure := by
  simp [askBlock, h, statusIntegrity, statusOk]

/-- Asking the block to check a triplet (R104): its data, or an IntegrityFailure. -/
theorem askBlock_chk (b0 b1 c : Byte) :
    askBlock (encode (.chk b0 b1 c)) =
      if crc8 b0 b1 = c then
        stageDo [.transaction (encode (.chk b0 b1 c)) ⟨statusOk, zext64 (halfwordOf b0 b1)⟩] (zext64 (halfwordOf b0 b1))
      else stageFail [.transaction (encode (.chk b0 b1 c)) ⟨statusIntegrity, 0⟩] .integrityFailure := by
  have hd : decode (encode (.chk b0 b1 c)) = .instr (.chk b0 b1 c) := by simp [decode, decodeOp, decodeWhenZero]
  split <;> rename_i h
  · exact askBlock_ok (by simp [transact_eq, answer, hd, exec, execChk, checksumPasses, h, respond])
  · exact askBlock_integrity (by simp [transact_eq, answer, hd, exec, execChk, checksumPasses, h, raiseIntegrityFailure, respond])

/-- Asking the block for a humidity (R143). -/
theorem askBlock_hum (raw : Halfword) :
    askBlock (encode (.hum raw)) =
      stageDo [.transaction (encode (.hum raw)) ⟨statusOk, zext64 (humBits raw)⟩] (zext64 (humBits raw)) := by
  have hd : decode (encode (.hum raw)) = .instr (.hum raw) := by simp [decode, decodeOp, decodeWhenZero]
  exact askBlock_ok (by simp [transact_eq, answer, hd, exec, execHum, respond])

/-- Asking the block for a temperature (R144). -/
theorem askBlock_temp (raw : Halfword) :
    askBlock (encode (.temp raw)) =
      stageDo [.transaction (encode (.temp raw)) ⟨statusOk, zext64 (tempBits raw)⟩] (zext64 (tempBits raw)) := by
  have hd : decode (encode (.temp raw)) = .instr (.temp raw) := by simp [decode, decodeOp, decodeWhenZero]
  exact askBlock_ok (by simp [transact_eq, answer, hd, exec, execTemp, respond])

/-- Asking the block for a whole frame (R161): both values, or an IntegrityFailure. -/
theorem askBlock_meas (h0 h1 hc t0 t1 tc : Byte) :
    askBlock (encode (.meas h0 h1 hc t0 t1 tc)) =
      if crc8 h0 h1 = hc ∧ crc8 t0 t1 = tc then
        stageDo [.transaction (encode (.meas h0 h1 hc t0 t1 tc))
          ⟨statusOk, humBits (halfwordOf h0 h1) ++ tempBits (halfwordOf t0 t1)⟩]
          (humBits (halfwordOf h0 h1) ++ tempBits (halfwordOf t0 t1))
      else stageFail [.transaction (encode (.meas h0 h1 hc t0 t1 tc)) ⟨statusIntegrity, 0⟩] .integrityFailure := by
  have hd : decode (encode (.meas h0 h1 hc t0 t1 tc)) = .instr (.meas h0 h1 hc t0 t1 tc) := by simp [decode, decodeOp]
  split <;> rename_i h
  · exact askBlock_ok (by simp [transact_eq, answer, hd, exec, execMeas, checksumPasses, h, respond])
  · refine askBlock_integrity (w := 0) ?_
    have hf : (checksumPasses h0 h1 hc && checksumPasses t0 t1 tc) = false := by simpa [checksumPasses] using h
    simp [transact_eq, answer, hd, exec, execMeas, hf, raiseIntegrityFailure, respond]

/-- Sending a Command: one request for its code, then the code's two bytes, first byte first, and the transport's answer. -/
theorem sendCommand_eq (c : Command) (reply : Ack) :
    sendCommand c reply = stageThen (stageDo [.transaction (encRequest c)
        ⟨statusOk, zext64 ((romLookup (commandIndex c)).getD 0)⟩] ()) fun _ =>
      busAction (transmitCode ((romLookup (commandIndex c)).getD 0)) reply := by
  cases c <;> cases reply <;> rfl

/-! The power states of a list of actions: only `assumed` gives one (R221). -/

@[simp] theorem assumedStates_nil : assumedStates [] = [] := rfl

@[simp] theorem assumedStates_append (a b : List HostAction) : assumedStates (a ++ b) = assumedStates a ++ assumedStates b :=
  List.filterMap_append ..

@[simp] theorem assumedStates_assumed (x : Option SensorPower) (l : List HostAction) :
    assumedStates (.assumed x :: l) = x :: assumedStates l := rfl

@[simp] theorem assumedStates_transaction (q : Request) (r : Response) (l : List HostAction) :
    assumedStates (.transaction q r :: l) = assumedStates l := rfl

@[simp] theorem assumedStates_transmit (x : Byte) (b : List Byte) (n : Nat) (l : List HostAction) :
    assumedStates (.transmit x b n :: l) = assumedStates l := rfl

@[simp] theorem assumedStates_receive (x : Byte) (k n : Nat) (l : List HostAction) :
    assumedStates (.receive x k n :: l) = assumedStates l := rfl

@[simp] theorem assumedStates_probe (x : BitVec 7) (k n : Nat) (l : List HostAction) :
    assumedStates (.probe x k n :: l) = assumedStates l := rfl

@[simp] theorem assumedStates_delay (n : Nat) (l : List HostAction) :
    assumedStates (.delayMicroseconds n :: l) = assumedStates l := rfl

end Sys2Proof.Laws
end

