-- ==== Sys2Proof/Laws/Float.lean ====
section
/-! SUPPORT. What the two pieces of the rounding do: the nearest natural number to a ratio, and the exponent of its binade. -/

namespace Sys2Proof.Laws

open Sys2Proof.Machine

/-- `nearestEven n d` is within half of `n / d`, and even where it is exactly half away. -/
theorem nearestEven_spec (n d : Nat) (hd : 0 < d) :
    2 * n ≤ 2 * (d * nearestEven n d) + d ∧ 2 * (d * nearestEven n d) ≤ 2 * n + d ∧
    (2 * n = 2 * (d * nearestEven n d) + d ∨ 2 * (d * nearestEven n d) = 2 * n + d → nearestEven n d % 2 = 0) := by
  have hn : d * (n / d) + n % d = n := Nat.div_add_mod n d
  have hr : n % d < d := Nat.mod_lt n hd
  unfold nearestEven
  split
  · exact ⟨by omega, by omega, by omega⟩
  · split
    · rw [Nat.mul_add, Nat.mul_one]
      exact ⟨by omega, by omega, by omega⟩
    · rcases Nat.mod_two_eq_zero_or_one (n / d) with h | h
      · rw [h, Nat.add_zero]
        exact ⟨by omega, by omega, fun _ => h⟩
      · rw [h, Nat.mul_add, Nat.mul_one]
        exact ⟨by omega, by omega, fun _ => by omega⟩

/-- `n / d` is below the power of two one above the difference of the logarithms. -/
theorem ratioBelowPow_log2_succ (n d : Nat) (hd : d ≠ 0) :
    ratioBelowPow n d ((n.log2 : Int) - (d.log2 : Int) + 1) = true := by
  have h1 : n < 2 ^ (n.log2 + 1) := Nat.lt_log2_self
  have h2 : 2 ^ d.log2 ≤ d := Nat.log2_self_le hd
  simp only [ratioBelowPow, decide_eq_true_eq]
  generalize n.log2 = a at *
  generalize d.log2 = b at *
  rcases Nat.lt_or_ge a b with h | h
  · obtain ⟨k, rfl⟩ : ∃ k, b = a + 1 + k := ⟨b - (a + 1), by omega⟩
    rw [show (-((a : Int) - ((a + 1 + k : Nat) : Int) + 1)).toNat = k by omega,
      show ((a : Int) - ((a + 1 + k : Nat) : Int) + 1).toNat = 0 by omega, Nat.pow_zero, Nat.mul_one]
    calc n * 2 ^ k < 2 ^ (a + 1) * 2 ^ k := Nat.mul_lt_mul_of_pos_right h1 (Nat.two_pow_pos k)
      _ = 2 ^ (a + 1 + k) := (Nat.pow_add 2 (a + 1) k).symm
      _ ≤ d := h2
  · obtain ⟨k, rfl⟩ : ∃ k, a = b + k := ⟨a - b, by omega⟩
    rw [show (-(((b + k : Nat) : Int) - (b : Int) + 1)).toNat = 0 by omega,
      show (((b + k : Nat) : Int) - (b : Int) + 1).toNat = k + 1 by omega, Nat.pow_zero, Nat.mul_one]
    calc n < 2 ^ (b + k + 1) := h1
      _ = 2 ^ b * 2 ^ (k + 1) := by rw [Nat.add_assoc, Nat.pow_add]
      _ ≤ d * 2 ^ (k + 1) := Nat.mul_le_mul_right _ h2

/-- `n / d` is not below the power of two one below the difference of the logarithms. -/
theorem ratioBelowPow_log2_pred (n d : Nat) (hn : n ≠ 0) :
    ratioBelowPow n d ((n.log2 : Int) - (d.log2 : Int) - 1) = false := by
  have h1 : 2 ^ n.log2 ≤ n := Nat.log2_self_le hn
  have h2 : d < 2 ^ (d.log2 + 1) := Nat.lt_log2_self
  simp only [ratioBelowPow, decide_eq_false_iff_not, Nat.not_lt]
  generalize n.log2 = a at *
  generalize d.log2 = b at *
  rcases Nat.lt_or_ge b a with h | h
  · obtain ⟨k, rfl⟩ : ∃ k, a = b + 1 + k := ⟨a - (b + 1), by omega⟩
    rw [show (-(((b + 1 + k : Nat) : Int) - (b : Int) - 1)).toNat = 0 by omega,
      show (((b + 1 + k : Nat) : Int) - (b : Int) - 1).toNat = k by omega, Nat.pow_zero, Nat.mul_one]
    calc d * 2 ^ k ≤ 2 ^ (b + 1) * 2 ^ k := Nat.mul_le_mul_right _ h2.le
      _ = 2 ^ (b + 1 + k) := (Nat.pow_add 2 (b + 1) k).symm
      _ ≤ n := h1
  · obtain ⟨k, rfl⟩ : ∃ k, b = a + k := ⟨b - a, by omega⟩
    rw [show (-((a : Int) - ((a + k : Nat) : Int) - 1)).toNat = k + 1 by omega,
      show ((a : Int) - ((a + k : Nat) : Int) - 1).toNat = 0 by omega, Nat.pow_zero, Nat.mul_one]
    calc d ≤ 2 ^ (a + k + 1) := h2.le
      _ = 2 ^ a * 2 ^ (k + 1) := by rw [Nat.add_assoc, Nat.pow_add]
      _ ≤ n * 2 ^ (k + 1) := Nat.mul_le_mul_right _ h1

/-- `ratioLog2 n d` is the exponent `e` with `2 ^ e ≤ n / d < 2 ^ (e + 1)`. -/
theorem ratioLog2_spec (n d : Nat) (hn : n ≠ 0) (hd : d ≠ 0) :
    ratioBelowPow n d (ratioLog2 n d) = false ∧ ratioBelowPow n d (ratioLog2 n d + 1) = true := by
  unfold ratioLog2
  simp only
  split
  · rename_i h
    exact ⟨ratioBelowPow_log2_pred n d hn, by rw [Int.sub_add_cancel]; exact h⟩
  · rename_i h
    exact ⟨by simpa using h, ratioBelowPow_log2_succ n d hd⟩

end Sys2Proof.Laws
end

