-- ==== Sys2Proof/Laws/PerInstr.lean ====
section
/-! SUPPORT. Statements for all operations, one lemma for each constructor. -/

namespace Sys2Proof.Laws

open Sys2Proof.Machine

namespace EncodesHeader

/-- The encoding of an operation carries its `op` value (R68) and a zero reserved field (R60, R69). -/
def Statement (i : Instr) : Prop :=
  opField (encode i) = i.opcode ∧ rsvField (encode i) = 0

theorem crc8 (b0 b1 : Byte) : Statement (.crc8 b0 b1) := ⟨opField_encode_crc8 b0 b1, rsvField_encode_crc8 b0 b1⟩

theorem chk (b0 b1 c : Byte) : Statement (.chk b0 b1 c) := ⟨opField_encode_chk b0 b1 c, rsvField_encode_chk b0 b1 c⟩

theorem enc (cmd : CommandIndex) : Statement (.enc cmd) := ⟨opField_encode_enc cmd, rsvField_encode_enc cmd⟩

theorem hum (raw : Halfword) : Statement (.hum raw) := ⟨opField_encode_hum raw, rsvField_encode_hum raw⟩

theorem temp (raw : Halfword) : Statement (.temp raw) := ⟨opField_encode_temp raw, rsvField_encode_temp raw⟩

theorem meas (h0 h1 hc t0 t1 tc : Byte) : Statement (.meas h0 h1 hc t0 t1 tc) := ⟨opField_encode_meas h0 h1 hc t0 t1 tc, rsvField_encode_meas h0 h1 hc t0 t1 tc⟩

end EncodesHeader

end Sys2Proof.Laws
end

