-- ==== Sys2Proof/Tests/Slice0.lean ====
section
/-! SUPPORT. The model's own tests. Every expected value is from the spec: the vectors of spec/95_test_vectors.md (L1, L2, L3), the
step trace of spec/41_checksum.md R110, or the layouts of spec/30_encoding.md written out bit by bit. After them, for each
statement with hypotheses, a state and operands that meet all of them. -/

namespace Sys2Proof.Tests

open Sys2Proof.Machine

/-- A request in flight, the block's turn next. -/
def busy (req : Request) : State := { inFlight := some req, response := none, events := [] }

/-- The response one step gives. -/
def responseTo (req : Request) : Option Response :=
  match step (busy req) with
  | .next s => s.response
  | .fault _ => none
  | .refused _ => none

/-! ### WellFormed refuses an ill-formed term -/

theorem test_enc_index_6_ill_formed : (Instr.enc 6).wellFormed = false := by decide
theorem test_enc_index_7_ill_formed : (Instr.enc 7).wellFormed = false := by decide
theorem test_enc_index_5_well_formed : (Instr.enc 5).wellFormed = true := by decide

/-! ### Words written out from the layouts: op, reserved bits, unused bits, operands -/

theorem test_decode_crc8 :
    decode 0b0001_000000000000_00000000000000000000000000000000_01101000_00111010 = .instr (.crc8 0x68 0x3A) := by decide
theorem test_decode_chk :
    decode 0b0010_000000000000_000000000000000000000000_10111110_11101111_10010010 = .instr (.chk 0xBE 0xEF 0x92) := by decide
theorem test_decode_enc :
    decode 0b0011_000000000000_000000000000000000000000000000000000000000000_101 = .instr (.enc 5) := by decide
theorem test_decode_hum :
    decode 0b0100_000000000000_00000000000000000000000000000000_1000000000000001 = .instr (.hum 0x8001) := by decide
theorem test_decode_temp :
    decode 0b0101_000000000000_00000000000000000000000000000000_0100000111010100 = .instr (.temp 0x41D4) := by decide
theorem test_decode_meas :
    decode 0b0110_000000000000_01011111_01001010_00011001_01101110_00111011_10010110
      = .instr (.meas 0x5F 0x4A 0x19 0x6E 0x3B 0x96) := by decide
theorem test_decode_all_zero_word : decode 0x0000000000000000 = .illegal (.reservedOp 0) := by decide
theorem test_decode_reserved_bits : decode 0x100100000000683A = .illegal (.reservedBits 1) := by decide
theorem test_decode_unused_bit : decode 0x5000800000000000 = .illegal .unusedOperandBits := by decide
theorem test_decode_enc_index_6 : decode 0x3000000000000006 = .illegal (.noSuchCommand 6) := by decide

/-! ### Responses (L2 of spec/95_test_vectors.md) -/

theorem test_crc8_BEEF : responseTo 0x100000000000BEEF = some ⟨0, 0x92⟩ := by decide +kernel
theorem test_crc8_byte_order : responseTo 0x1000000000000100 = some ⟨0, 0x75⟩ := by decide +kernel
theorem test_chk_pass : responseTo 0x2000000000683AFD = some ⟨0, 0x683A⟩ := by decide +kernel
theorem test_chk_source_value_fails : responseTo 0x2000000000683A7C = some ⟨1, 0⟩ := by decide +kernel
theorem test_enc_wakeup : responseTo 0x3000000000000000 = some ⟨0, 0x3517⟩ := by decide
theorem test_enc_temperature_first : responseTo 0x3000000000000005 = some ⟨0, 0x7CA2⟩ := by decide
theorem test_hum_smallest : responseTo 0x4000000000000001 = some ⟨0, 0x3AC800C8⟩ := by decide
theorem test_hum_unsigned : responseTo 0x4000000000008000 = some ⟨0, 0x424800C8⟩ := by decide
theorem test_temp_rounded_once : responseTo 0x5000000000000147 = some ⟨0, 0xC23081D9⟩ := by decide
theorem test_temp_nearest_zero : responseTo 0x50000000000041D4 = some ⟨0, 0x39C800C8⟩ := by decide
theorem test_meas_pass : responseTo 0x60005F4A196E3B96 = some ⟨0, 0x4214E43541F2D503⟩ := by decide +kernel
theorem test_meas_temperature_wrong : responseTo 0x60005F4A196E3B97 = some ⟨1, 0⟩ := by decide +kernel
theorem test_illegal_before_integrity : responseTo 0x2800000000683A7C = some ⟨2, 0⟩ := by decide
theorem test_illegal_op : responseTo 0xF000FFFFFFFFFFFF = some ⟨2, 0⟩ := by decide

/-- The accumulators of R110, from the XOR of the second byte on. -/
theorem test_round_trace :
    (List.range 9).map (fun k => crcRounds k 0x94) = [0x94, 0x19, 0x32, 0x64, 0xC8, 0xA1, 0x73, 0xE6, 0xFD] := by decide

/-! ### The host's interface -/

theorem test_decodeTableWord : decodeTableWord 64 0x4000000000008000 = some (.hum 0x8000) := by decide
theorem test_decodeTableWord_illegal : decodeTableWord 64 0 = none := by decide
theorem test_withFetchWord_runs :
    step (State.reset.withFetchWord 64 0x3000000000000001)
      = .next { inFlight := none, response := some ⟨0, 0xB098⟩, events := [] } := rfl

/-! ### The assembler (R76) and the host (L3) -/

theorem test_assemble_enc : assemble (.enc "Sleep") = some 0x3000000000000001 := by decide
theorem test_assemble_too_wide : assemble (.crc8 0x100 0x00) = none := by decide

/-- What goes over the bus, in order: the bytes transmitted, and an empty list for a read or a probe. -/
def busBytes (log : List HostAction) : List (List Byte) :=
  log.filterMap fun a => match a with
    | .transmit _ bytes _ => some bytes
    | .receive _ _ _ => some []
    | .probe _ _ _ => some []
    | .transaction _ _ => none
    | .delayMicroseconds _ => none
    | .assumed _ => none

/-- The frame of P2, with its last byte. -/
def frameP2 (tc : Byte) : Frame := ⟨0x5F, 0x4A, 0x19, 0x6E, 0x3B, tc⟩

/-- The host's parameters in these tests: no slack, one retry. -/
def params : HostParams := { wakeSlackUs := 0, resetSlackUs := 0, probeRetries := 1 }

theorem test_P1_bus : busBytes (hostInit params true ⟨.ok, .ok, .ok, some (0x08, 0x87, 0x5B)⟩).log
    = [[0x35, 0x17], [], [0xEF, 0xC8], []] := by decide +kernel
theorem test_P1_serial : (hostInit params true ⟨.ok, .ok, .ok, some (0x08, 0x87, 0x5B)⟩).outcome = .ok (some 0x0887) := by decide +kernel
theorem test_P2_bus : busBytes (readMeasurement params ⟨.ok, .ok, some (frameP2 0x96), .ok⟩).log
    = [[0x35, 0x17], [0x5C, 0x24], [], [0xB0, 0x98]] := by decide +kernel
theorem test_P2_measurement : (readMeasurement params ⟨.ok, .ok, some (frameP2 0x96), .ok⟩).outcome
    = .ok ⟨0x4214E435, 0x41F2D503⟩ := by decide +kernel
theorem test_P3_outcome : (readMeasurement params ⟨.ok, .ok, some (frameP2 0x97), .ok⟩).outcome
    = .error .integrityFailure := by decide +kernel
/-- The same frame decoded piece by piece, program P4: two `CHK`, `HUM` and `TEMP`, and the Measurement of P2. -/
theorem test_P4_requests : (decodePieces (frameP2 0x96)).log =
    [.transaction 0x20000000005F4A19 ⟨0, 0x5F4A⟩, .transaction 0x20000000006E3B96 ⟨0, 0x6E3B⟩,
      .transaction 0x4000000000005F4A ⟨0, 0x4214E435⟩, .transaction 0x5000000000006E3B ⟨0, 0x41F2D503⟩] := by decide +kernel
theorem test_P4_measurement :
    (readMeasurement { params with decoding := .fourSingles } ⟨.ok, .ok, some (frameP2 0x96), .ok⟩).outcome
      = .ok ⟨0x4214E435, 0x41F2D503⟩ := by decide +kernel
theorem test_P5_bus : busBytes (readMeasurement params ⟨.ok, .ok, none, .ok⟩).log
    = [[0x35, 0x17], [0x5C, 0x24], [], [0xB0, 0x98]] := by decide
theorem test_P6_bus : busBytes (hostInit params true ⟨.ok, .error, .ok, none⟩).log = [[0x35, 0x17], []] := by decide
theorem test_P7_bus : busBytes ((softReset params .awake .ok).log ++ (enterSleep .sleeping .ok).log) = [[0x80, 0x5D], [0xB0, 0x98]] := by decide

/-! ### Witnesses: what meets the hypotheses of the statements -/

theorem test_witness_ResponseExistsOnlyAfterAnswer :
    ∃ t, step (busy 0x3000000000000000) = .next t ∧ t.response ≠ none := ⟨_, rfl, by decide⟩

theorem test_witness_ResetDiscardsTheRequestInFlight :
    (busy 0x3000000000000000).inFlight = some 0x3000000000000000 := rfl

/-- A request is in flight and the host presents `req`. -/
theorem test_witness_RequestIsHeld_present :
    let s : State := { inFlight := some 0x0, response := none, events := [.present 0x3000000000000000] }
    s.inFlight = some 0x0 ∧ nextEvent s = .present 0x3000000000000000 := by decide

/-- A request is in flight and the host changes one bit of it. -/
theorem test_witness_RequestIsHeld_change :
    let s : State := { inFlight := some 0x2, response := none, events := [.change 0x3] }
    s.inFlight = some 0x2 ∧ nextEvent s = .change 0x3 ∧ (0x3 : Request) ≠ 0x2 := by decide

/-- A request is in flight and the host holds it unchanged. -/
theorem test_witness_RequestIsHeld_hold :
    let s : State := { inFlight := some 0x2, response := none, events := [.change 0x2] }
    s.inFlight = some 0x2 ∧ nextEvent s = .change 0x2 := by decide

/-- Two cycles of latency; the first clause then covers k = 1 and k = 2. -/
theorem test_witness_EveryRequestGetsExactlyOneResponse :
    let s : State := { inFlight := some 0x0, response := none, events := [.tick, .tick, .deliver, .deliver] }
    s.inFlight = some 0x0 ∧ s.events = List.replicate 2 .tick ++ .deliver :: .deliver :: [] ∧ 1 ≤ 1 ∧ 2 ≤ 2 := by decide

/-- An `Answers` premise: ResponseIsAFunctionOfTheRequest, StepAnswersAsThePseudocode. -/
theorem test_witness_Answers : (busy 0x3000000000000000).Answers 0x3000000000000000 := ⟨by decide, rfl⟩

theorem test_witness_RequestsMayBeRepeatedOrReordered : State.reset.inFlight = none := rfl

theorem test_witness_OnlyTheHostFaults :
    step { inFlight := some 0x0, response := none, events := [.present 0x0] } = .fault .presentedWhileInFlight := rfl

theorem test_witness_StepKeepsTheTransactionInvariant :
    (busy 0x3000000000000000).Inv ∧ ∃ t, step (busy 0x3000000000000000) = .next t := by
  refine ⟨⟨fun _ => rfl, fun r hr => ?_⟩, _, rfl⟩
  cases hr

/-- R69, cases 1 to 4 at the edges of their ranges: op 0, op 7, op 15, one reserved bit, one unused bit for each operation that has
any, index 6 and index 7. -/
theorem test_witness_IllegalWords :
    [(0x0000000000000000 : Request), 0x7000000000000000, 0xF000000000000000, 0x1001000000000000, 0x6800000000000000,
      0x1000000000010000, 0x2000000001000000, 0x3000000000000008, 0x4000800000000000, 0x5000000000010000,
      0x3000000000000006, 0x3000000000000007].all (fun w => decide (IllegalWord w)) = true := by decide

/-- The other clause of the same statement: a word that is none of the four cases, with the largest legal index. -/
theorem test_witness_LegalWord : ¬ IllegalWord 0x3000000000000005 ∧
    (busy 0x3000000000000005).Answers 0x3000000000000005 := by
  exact ⟨by decide, by decide, rfl⟩

/-- LegalWordsMatchOneTableRow: a legal word, an illegal one of no row, and an illegal one of the `ENC` row. -/
theorem test_witness_LegalWordsMatchOneTableRow :
    decode 0x3000000000000005 = .instr (.enc 5) ∧ legal 0x0000000000000000 = false ∧ legal 0x3000000000000006 = false := by decide

theorem test_witness_StepRunsTheDecodedInstruction :
    (busy 0x400000000000FFFF).Answers 0x400000000000FFFF ∧ decode 0x400000000000FFFF = .instr (.hum 0xFFFF) :=
  ⟨⟨by decide, rfl⟩, by decide⟩

/-- StatusByOperation: an operation that is always `OK`, and one that gives `INTEGRITY`. -/
theorem test_witness_StatusByOperation :
    (∃ t r, exec (.enc 5) State.reset = .next t ∧ t.response = some r ∧ (Instr.enc 5).wellFormed = true ∧ r.status = 0b00) ∧
    ∃ t r, exec (.chk 0 0 0) State.reset = .next t ∧ t.response = some r ∧ r.status = 0b01 := by
  have hfail : checksumPasses 0 0 0 = false := by decide +kernel
  have hchk : exec (.chk 0 0 0) State.reset = .next (State.reset.responded ⟨1, 0⟩) := by
    simp only [exec, execChk, hfail]
    rfl
  exact ⟨⟨_, _, rfl, rfl, by decide, by decide⟩, _, _, hchk, rfl, rfl⟩

theorem test_witness_ChkAcceptsExactlyTheChecksum : (0x80 : Byte) ≠ crc8 0x00 0x00 := by decide +kernel

/-- ErrorDetection: a passing triplet, and patterns of the least and greatest weight of each clause. -/
theorem test_witness_ErrorDetection :
    tripletPasses 0x683AFD = true ∧ weight 0x000001 = 1 ∧ weight 0x800003 = 3 ∧ weight 0x7FFFFF % 2 = 1 := by decide +kernel

/-- EncAnswersTheWireCode and EncIsInjective: the largest legal index, and both that name no Command. -/
theorem test_witness_EncIndices :
    (5 : CommandIndex).toNat ≤ 5 ∧ ((6 : CommandIndex) = 6 ∨ (6 : CommandIndex) = 7) ∧
      ((7 : CommandIndex) = 6 ∨ (7 : CommandIndex) = 7) := by decide

theorem test_witness_EncIsInjective :
    ∃ t u, exec (.enc 0) State.reset = .next t ∧ exec (.enc 0) State.reset = .next u ∧ t.response = u.response ∧
      ∃ r, t.response = some r := ⟨_, _, rfl, rfl, rfl, _, rfl⟩

theorem test_witness_RoundingIsNearestTiesToEven : 0 < 2 ∧ |((1 : Int) : ℚ) / ((2 : Nat) : ℚ)| ≤ maxFinite32 := by
  norm_num [maxFinite32]

theorem test_witness_ConversionRangeAndMonotonicity : (0 : Halfword).toNat < (65535 : Halfword).toNat := by decide

theorem test_witness_ConversionsGiveNormalNumbers : (0 : Halfword) = 0 ∧ (1 : Halfword) ≠ 0 := by decide

/-- RoundingErrorIsHalfAnUlp: raw 65535 gives values in the last binades. -/
theorem test_witness_RoundingErrorIsHalfAnUlp :
    ∃ h t, floatValue? (humBits 65535) = some h ∧ 64 ≤ h ∧ floatValue? (tempBits 65535) = some t ∧ 128 ≤ t := by
  have hh : humBits 65535 = 0x42C80000 := by decide
  have ht : tempBits 65535 = 0x43020000 := by decide
  have hhs : (0x42C80000 : FloatBits).msb = false := by decide
  have hts : (0x43020000 : FloatBits).msb = false := by decide
  have hhe : exponentField 0x42C80000 = 133 := by decide
  have hte : exponentField 0x43020000 = 134 := by decide
  rw [hh, ht]
  refine ⟨_, _, rfl, ?_, rfl, ?_⟩
  · simp only [hhs, hhe, show fractionField 0x42C80000 = 4718592 from by decide]; norm_num
  · simp only [hts, hte, show fractionField 0x43020000 = 131072 from by decide]; norm_num

/-- MeasAnswersBothValuesOrIntegrity: a frame that passes, and one whose humidity triplet alone fails. -/
theorem test_witness_Meas :
    (crc8 0x66 0x66 = 0x93 ∧ crc8 0x66 0x66 = 0x93) ∧ ¬ (crc8 0x66 0x66 = 0x92 ∧ crc8 0x66 0x66 = 0x93) := by decide +kernel

/-- AssembledLinesDecode: literals that fit at the top of each field, in a line that assembles; the first number of each clause of
refusals; and a name that is no Command, by its capitals alone. -/
theorem test_witness_AssembledLinesDecode :
    assemble (.hum 0xFFFF) = some 0x400000000000FFFF ∧ (∀ w, AsmLine.hum 0xFFFF ≠ .word w) ∧ 0xFF < 2 ^ 8 ∧ 0xFFFF < 2 ^ 16 ∧
      2 ^ 64 - 1 < 2 ^ 64 ∧ 2 ^ 64 ≤ 2 ^ 64 ∧ 2 ^ 16 ≤ 0x10000 ∧ 2 ^ 8 ≤ 0x100 ∧
      "wakeup" ∉ ["Wakeup", "Sleep", "SoftReset", "ReadSerialID", "MeasureHumidityFirst", "MeasureTemperatureFirst"] := by
  refine ⟨by decide, fun w h => ?_, by decide⟩
  cases h

/-- ReadMeasurementOutcome: replies that meet the premises of the second clause, with a frame for each of its two cases. -/
theorem test_witness_ReadMeasurementOutcome :
    let r : MeasurementReplies := ⟨.ok, .ok, some (frameP2 0x96), .ok⟩
    r.wakeup = .ok ∧ r.measure = .ok ∧ r.frame = some (frameP2 0x96) ∧
      (crc8 0x5F 0x4A = 0x19 ∧ crc8 0x6E 0x3B = (frameP2 0x96).tc) ∧
      ¬ (crc8 0x5F 0x4A = 0x19 ∧ crc8 0x6E 0x3B = (frameP2 0x97).tc) := by decide +kernel

/-- ReadMeasurementOutcome, first clause: a Wakeup that fails, a read that fails. -/
theorem test_witness_ReadMeasurementOutcome_transport :
    (⟨.error, .ok, none, .ok⟩ : MeasurementReplies).wakeup = .error ∧
      (⟨.ok, .ok, none, .ok⟩ : MeasurementReplies).frame = none := by decide

/-- TheHostWaitsLongEnough: replies with an acknowledged Wakeup, for either operation. -/
theorem test_witness_TheHostWaitsLongEnough :
    (⟨.ok, .error, none, .error⟩ : MeasurementReplies).wakeup = .ok ∧
      (⟨.ok, .error, .error, none⟩ : InitReplies).wakeup = .ok := by decide

/-- AssumedPowerStates: an Init and a ReadMeasurement that succeed, and both start states of SoftReset. -/
theorem test_witness_AssumedPowerStates :
    (hostInit params false ⟨.ok, .ok, .ok, none⟩).outcome = .ok none ∧
      (readMeasurement params ⟨.ok, .ok, some (frameP2 0x96), .ok⟩).outcome = .ok ⟨0x4214E435, 0x41F2D503⟩ ∧
      SensorPower.sleeping ∈ [SensorPower.sleeping, .awake] ∧ SensorPower.awake ∈ [SensorPower.sleeping, .awake] := by
  decide +kernel

/-- InitOutcome: replies that meet the premises of its second clause, with a triplet for each case; the first clause is met by a
failing probe. -/
theorem test_witness_InitOutcome :
    let r : InitReplies := ⟨.ok, .ok, .ok, some (0x08, 0x87, 0x5B)⟩
    r.wakeup = .ok ∧ r.probe = .ok ∧ r.readID = .ok ∧ r.bytes = some (0x08, 0x87, 0x5B) ∧
      (0x5B : Byte) = crc8 0x08 0x87 ∧ (0x5A : Byte) ≠ crc8 0x08 0x87 ∧ ({ r with probe := .error } : InitReplies).probe = .error := by
  decide +kernel

end Sys2Proof.Tests
end

section
/-! The response that each operation and each request word gets (spec/10_state.md R20): every meaning of the model answers next
with a response computed from its operands alone, whatever the state. -/

namespace Sys2Proof.Proofs

open Sys2Proof.Machine Sys2Proof.Laws

/-! ### Responses as values -/

/-- The response `(OK, result)` (R72). -/
def okResponse (result : ResultWord) : Response := { status := statusOk, result := result }

/-- The response that stands for `IntegrityFailure` (R201). -/
def integrityResponse : Response := { status := statusIntegrity, result := 0 }

/-- The response that stands for `IllegalRequest` (R202). -/
def illegalResponse : Response := { status := statusIllegal, result := 0 }

/-- The response of a decoded operation, from its operands alone. -/
def instrResponse (i : Instr) : Response :=
  match i with
  | .crc8 b0 b1 => okResponse (zext64 (crc8 b0 b1))
  | .chk b0 b1 c =>
    if checksumPasses b0 b1 c then okResponse (zext64 (halfwordOf b0 b1)) else integrityResponse
  | .enc cmd => (romLookup cmd).elim illegalResponse fun code => okResponse (zext64 code)
  | .hum raw => okResponse (zext64 (humBits raw))
  | .temp raw => okResponse (zext64 (tempBits raw))
  | .meas h0 h1 hc t0 t1 tc =>
    if checksumPasses h0 h1 hc && checksumPasses t0 t1 tc then
      okResponse (humBits (halfwordOf h0 h1) ++ tempBits (halfwordOf t0 t1))
    else integrityResponse

/-- The response of a request word: that of its operation, or `IllegalRequest` (R69, R205). -/
def wordResponse (req : Request) : Response :=
  match decode req with
  | .instr i => instrResponse i
  | .illegal _ => illegalResponse

theorem wordResponse_of_decode_instr {req : Request} {i : Instr} (h : decode req = .instr i) :
    wordResponse req = instrResponse i := by
  simp [wordResponse, h]

theorem wordResponse_of_decode_illegal {req : Request} {e : DecodeError} (h : decode req = .illegal e) :
    wordResponse req = illegalResponse := by
  simp [wordResponse, h]

/-! ### What each operation does to the state -/

theorem exec_crc8 (b0 b1 : Byte) (s : State) :
    exec (.crc8 b0 b1) s = .next (s.responded (okResponse (zext64 (crc8 b0 b1)))) :=
  respond_eq _ _ s

theorem exec_hum (raw : Halfword) (s : State) :
    exec (.hum raw) s = .next (s.responded (okResponse (zext64 (humBits raw)))) :=
  respond_eq _ _ s

theorem exec_temp (raw : Halfword) (s : State) :
    exec (.temp raw) s = .next (s.responded (okResponse (zext64 (tempBits raw)))) :=
  respond_eq _ _ s

/-- The triplet's check decides between the data and `IntegrityFailure` (R104). -/
theorem exec_chk (b0 b1 c : Byte) (s : State) :
    exec (.chk b0 b1 c) s = .next (s.responded (instrResponse (.chk b0 b1 c))) := by
  simp only [exec, execChk, instrResponse]
  split
  · exact respond_eq _ _ s
  · exact raiseIntegrityFailure_eq s

/-- Both checks together decide between the two conversions and `IntegrityFailure` (R161, R162). -/
theorem exec_meas (h0 h1 hc t0 t1 tc : Byte) (s : State) :
    exec (.meas h0 h1 hc t0 t1 tc) s = .next (s.responded (instrResponse (.meas h0 h1 hc t0 t1 tc))) := by
  simp only [exec, execMeas, instrResponse]
  split
  · exact respond_eq _ _ s
  · exact raiseIntegrityFailure_eq s

/-- An index with a wire code gets the code (R122). -/
theorem exec_enc_of_some {cmd : CommandIndex} {code : Halfword} (h : romLookup cmd = some code) (s : State) :
    exec (.enc cmd) s = .next (s.responded (okResponse (zext64 code))) := by
  simp [exec, execEnc, h, halfwordOf_bytes, respond_eq, okResponse]

/-- An index that names no Command is illegal (R122). -/
theorem exec_enc_of_none {cmd : CommandIndex} (h : romLookup cmd = none) (s : State) :
    exec (.enc cmd) s = .next (s.responded illegalResponse) := by
  simp [exec, execEnc, h, raiseIllegalRequest_eq, illegalResponse]

/-- Every operation answers next, with a response that its operands alone fix. -/
theorem exec_eq_responded (i : Instr) (s : State) : exec i s = .next (s.responded (instrResponse i)) := by
  cases i with
  | crc8 b0 b1 => exact exec_crc8 b0 b1 s
  | chk b0 b1 c => exact exec_chk b0 b1 c s
  | enc cmd =>
    cases h : romLookup cmd with
    | some code => simp [exec_enc_of_some h, instrResponse, h]
    | none => simp [exec_enc_of_none h, instrResponse, h]
  | hum raw => exact exec_hum raw s
  | temp raw => exact exec_temp raw s
  | meas h0 h1 hc t0 t1 tc => exact exec_meas h0 h1 hc t0 t1 tc s

/-! ### What a request word gets -/

/-- The block answers every word, legal or not, with the word's own response. -/
theorem answer_eq_responded (req : Request) (s : State) :
    answer req s = .next (s.responded (wordResponse req)) := by
  cases h : decode req with
  | instr i => simp [answer, h, exec_eq_responded, wordResponse_of_decode_instr h]
  | illegal e => simp [answer, h, raiseIllegalRequest_eq, wordResponse_of_decode_illegal h, illegalResponse]

/-- The block's turn with `req` in flight: the word's own response, nothing left in flight, the event taken. -/
theorem step_eq_answered {s : State} {req : Request} (h : s.Answers req) :
    step s = .next (s.answered (wordResponse req)) := by
  rw [step_deliver_answers h, answer_eq_responded, responded_popEvent]

/-- Settles O5: the function is `wordResponse`, which reads no field of the state. -/
theorem responseIsAFunctionOfTheRequest : Obligations.ResponseIsAFunctionOfTheRequest :=
  ⟨wordResponse, fun _ _ h => step_eq_answered h⟩

end Sys2Proof.Proofs
end

section
/-! Which request words are operations (spec/30_encoding.md R69, R70): the decoder, the legality predicate, the four cases of an
illegal word and the rows of the opcode table, each said in terms of the fields that an operation's layout fixes. -/

namespace Sys2Proof.Proofs

open Sys2Proof.Machine Sys2Proof.Laws

/-! ### The operand layouts -/

/-- `op`, the unused bits and the operands of `req` are those of the operation `i` (R62 to R67); nothing is said of `rsv`. -/
inductive HasLayout (req : Request) : Instr → Prop where
  | crc8 (hop : opField req = 1) (hunused : unusedAbove16 req = 0) :
      HasLayout req (.crc8 (byteField req 8) (byteField req 0))
  | chk (hop : opField req = 2) (hunused : unusedAbove24 req = 0) :
      HasLayout req (.chk (byteField req 16) (byteField req 8) (byteField req 0))
  | enc (hop : opField req = 3) (hunused : unusedAbove3 req = 0) (hcmd : commandIndexOk (cmdField req) = true) :
      HasLayout req (.enc (cmdField req))
  | hum (hop : opField req = 4) (hunused : unusedAbove16 req = 0) : HasLayout req (.hum (rawField req))
  | temp (hop : opField req = 5) (hunused : unusedAbove16 req = 0) : HasLayout req (.temp (rawField req))
  | meas (hop : opField req = 6) :
      HasLayout req (.meas (byteField req 40) (byteField req 32) (byteField req 24)
        (byteField req 16) (byteField req 8) (byteField req 0))

theorem HasLayout.wellFormed {req : Request} {i : Instr} (h : HasLayout req i) : i.wellFormed = true := by
  cases h with
  | enc _ _ hcmd => exact hcmd
  | _ => rfl

/-- The opcode map of R68: the six operations, and the reserved values. -/
theorem op_cases (op : BitVec 4) :
    op = 1 ∨ op = 2 ∨ op = 3 ∨ op = 4 ∨ op = 5 ∨ op = 6 ∨ (op = 0 ∨ 7 ≤ op.toNat) := by
  revert op; decide

theorem commandIndexOk_eq_false_iff (cmd : CommandIndex) : commandIndexOk cmd = false ↔ cmd = 6 ∨ cmd = 7 := by
  revert cmd; decide

/-! ### The decoder -/

theorem decodeWhenZero_zero {n : Nat} {unused : BitVec n} (h : unused = 0) (i : Instr) :
    decodeWhenZero unused i = .instr i := by
  simp [decodeWhenZero, h]

theorem hasLayout_of_decodeEnc {req : Request} {i : Instr} (hop : opField req = 3) (h : decodeEnc req = .instr i) :
    HasLayout req i := by
  unfold decodeEnc at h
  split at h
  next hcmd =>
    obtain ⟨hunused, rfl⟩ := decodeWhenZero_instr h
    exact .enc hop hunused hcmd
  next => cases h

/-- The layout that `op` selects (R74) is the only one that `decodeOp` reads. -/
theorem hasLayout_of_decodeOp {req : Request} {i : Instr} (h : decodeOp req = .instr i) : HasLayout req i := by
  unfold decodeOp at h
  split at h
  next hop => obtain ⟨hunused, rfl⟩ := decodeWhenZero_instr h; exact .crc8 hop hunused
  next hop => obtain ⟨hunused, rfl⟩ := decodeWhenZero_instr h; exact .chk hop hunused
  next hop => exact hasLayout_of_decodeEnc hop h
  next hop => obtain ⟨hunused, rfl⟩ := decodeWhenZero_instr h; exact .hum hop hunused
  next hop => obtain ⟨hunused, rfl⟩ := decodeWhenZero_instr h; exact .temp hop hunused
  next hop => cases h; exact .meas hop
  next => cases h

theorem HasLayout.decodeOp_eq {req : Request} {i : Instr} (h : HasLayout req i) : decodeOp req = .instr i := by
  cases h with
  | crc8 hop hunused => simp [decodeOp, hop, decodeWhenZero_zero hunused]
  | chk hop hunused => simp [decodeOp, hop, decodeWhenZero_zero hunused]
  | enc hop hunused hcmd => simp [decodeOp, hop, decodeEnc, hcmd, decodeWhenZero_zero hunused]
  | hum hop hunused => simp [decodeOp, hop, decodeWhenZero_zero hunused]
  | temp hop hunused => simp [decodeOp, hop, decodeWhenZero_zero hunused]
  | meas hop => simp [decodeOp, hop]

/-- The decoder answers an operation exactly where the reserved bits are zero and the word has the operation's layout. -/
theorem decode_eq_instr_iff {req : Request} {i : Instr} :
    decode req = .instr i ↔ rsvField req = 0 ∧ HasLayout req i := by
  by_cases hrsv : rsvField req = 0
  · simp only [decode, hrsv, if_true, true_and]
    exact ⟨hasLayout_of_decodeOp, HasLayout.decodeOp_eq⟩
  · rw [decode, if_neg hrsv]
    exact iff_of_false nofun fun h => hrsv h.1

/-! ### The legality predicate -/

theorem HasLayout.legal_eq_true {req : Request} {i : Instr} (hrsv : rsvField req = 0) (h : HasLayout req i) :
    legal req = true := by
  cases h with
  | crc8 hop hunused => simp [legal, hrsv, hop, hunused]
  | chk hop hunused => simp [legal, hrsv, hop, hunused]
  | enc hop hunused hcmd => simpa [legal, hrsv, hop, hunused, commandIndexOk] using hcmd
  | hum hop hunused => simp [legal, hrsv, hop, hunused]
  | temp hop hunused => simp [legal, hrsv, hop, hunused]
  | meas hop => simp [legal, hrsv, hop]

theorem exists_hasLayout_of_legal {req : Request} (h : legal req = true) :
    rsvField req = 0 ∧ ∃ i, HasLayout req i := by
  unfold legal at h
  split at h
  next => cases h
  next hrsv =>
    refine ⟨not_not.mp hrsv, ?_⟩
    split at h
    next hop => exact ⟨_, .crc8 hop (of_decide_eq_true h)⟩
    split at h
    next hop => exact ⟨_, .chk hop (of_decide_eq_true h)⟩
    split at h
    next hop =>
      obtain ⟨hunused, hcmd⟩ := Bool.and_eq_true_iff.mp h
      exact ⟨_, .enc hop (of_decide_eq_true hunused) hcmd⟩
    split at h
    next hop => exact ⟨_, .hum hop (of_decide_eq_true h)⟩
    split at h
    next hop => exact ⟨_, .temp hop (of_decide_eq_true h)⟩
    split at h
    next hop => exact ⟨_, .meas hop⟩
    next => cases h

theorem legal_iff_exists_decode (req : Request) : legal req = true ↔ ∃ i, decode req = .instr i := by
  simp only [decode_eq_instr_iff, exists_and_left]
  exact ⟨exists_hasLayout_of_legal, fun ⟨hrsv, _, h⟩ => h.legal_eq_true hrsv⟩

/-! ### The answer to an illegal word -/

/-- A layout and zero reserved bits rule out each of R69's cases. -/
theorem HasLayout.not_illegalWord {req : Request} {i : Instr} (hrsv : rsvField req = 0) (h : HasLayout req i) :
    ¬ IllegalWord req := by
  cases h with
  | crc8 hop hunused => simp [IllegalWord, hrsv, hop, show req.extractLsb' 16 32 = 0 from hunused]
  | chk hop hunused => simp [IllegalWord, hrsv, hop, show req.extractLsb' 24 24 = 0 from hunused]
  | enc hop hunused hcmd =>
    have hindex : ¬ (req.extractLsb' 0 3 = 6 ∨ req.extractLsb' 0 3 = 7) := fun hbad =>
      Bool.eq_false_iff.mp ((commandIndexOk_eq_false_iff (cmdField req)).mpr hbad) hcmd
    simpa [IllegalWord, hrsv, hop, show req.extractLsb' 3 45 = 0 from hunused] using hindex
  | hum hop hunused => simp [IllegalWord, hrsv, hop, show req.extractLsb' 16 32 = 0 from hunused]
  | temp hop hunused => simp [IllegalWord, hrsv, hop, show req.extractLsb' 16 32 = 0 from hunused]
  | meas hop => simp [IllegalWord, hrsv, hop]

/-- With R69's four cases ruled out, `op` is one of the six and its layout is met. -/
theorem exists_hasLayout_of_not_illegalWord {req : Request} (h : ¬ IllegalWord req) :
    rsvField req = 0 ∧ ∃ i, HasLayout req i := by
  simp only [IllegalWord, not_or] at h
  obtain ⟨⟨hop0, hop7⟩, hrsv, ⟨h16, h24, h3⟩, hindex⟩ := h
  refine ⟨not_not.mp hrsv, ?_⟩
  rcases op_cases (opField req) with hop | hop | hop | hop | hop | hop | hop
  · exact ⟨_, .crc8 hop (by_contra fun hu => h16 ⟨.inl hop, hu⟩)⟩
  · exact ⟨_, .chk hop (by_contra fun hu => h24 ⟨hop, hu⟩)⟩
  · have hcmd : commandIndexOk (cmdField req) = true := by
      rw [← Bool.not_eq_false, commandIndexOk_eq_false_iff]
      exact fun hbad => hindex ⟨hop, hbad⟩
    exact ⟨_, .enc hop (by_contra fun hu => h3 ⟨hop, hu⟩) hcmd⟩
  · exact ⟨_, .hum hop (by_contra fun hu => h16 ⟨.inr (.inl hop), hu⟩)⟩
  · exact ⟨_, .temp hop (by_contra fun hu => h16 ⟨.inr (.inr hop), hu⟩)⟩
  · exact ⟨_, .meas hop⟩
  · exact absurd hop (not_or.mpr ⟨hop0, hop7⟩)

theorem wordResponse_of_illegalWord {req : Request} (h : IllegalWord req) : wordResponse req = illegalResponse := by
  cases hd : decode req with
  | instr i =>
    obtain ⟨hrsv, hlayout⟩ := decode_eq_instr_iff.mp hd
    exact absurd h (hlayout.not_illegalWord hrsv)
  | illegal why => exact wordResponse_of_decode_illegal hd

/-- Settles O12: the decoder answers an operation exactly where none of R69's cases holds, and any other word gets the response
of an illegal one. -/
theorem illegalWordsAreAnsweredIllegal : Obligations.IllegalWordsAreAnsweredIllegal := by
  intro s req hs
  refine ⟨fun h => ?_, fun h => ?_⟩
  · rw [step_eq_answered hs, wordResponse_of_illegalWord h]
    rfl
  · obtain ⟨hrsv, i, hlayout⟩ := exists_hasLayout_of_not_illegalWord h
    have hd : decode req = .instr i := decode_eq_instr_iff.mpr ⟨hrsv, hlayout⟩
    exact ⟨i, hlayout.wellFormed, hd, by simp [step_deliver_answers hs, answer, hd]⟩

/-! ### The rows of the opcode table -/

/-- A row of the table: `match` holds `op` over zeros, and `mask` all bits but the low `k`. -/
def layoutRow (name : String) (op : BitVec 4) (k : Nat) : String × Request × Request :=
  (name, op ++ 0#60, BitVec.allOnes 64 <<< k)

theorem opcodeTable_eq_layoutRows : opcodeTable =
    [layoutRow "CRC8" 1 16, layoutRow "CHK" 2 24, layoutRow "ENC" 3 3, layoutRow "HUM" 4 16, layoutRow "TEMP" 5 16,
      layoutRow "MEAS" 6 48] := by decide

/-- Masking clears the low `k` bits, so a match is an equation between the word and `op` in its place. -/
theorem matchesRow_layoutRow_iff_toNat (req : Request) (name : String) (op : BitVec 4) (k : Nat) :
    matchesRow req (layoutRow name op k) = true ↔ req.toNat / 2 ^ k * 2 ^ k = op.toNat * 2 ^ 60 := by
  have hle : req.toNat / 2 ^ k * 2 ^ k < 2 ^ 64 := (Nat.div_mul_le_self _ _).trans_lt req.isLt
  simp only [matchesRow, layoutRow, decide_eq_true_eq, ← BitVec.shiftLeft_ushiftRight]
  rw [BitVec.toNat_eq, BitVec.toNat_shiftLeft, BitVec.toNat_ushiftRight, BitVec.toNat_append, Nat.shiftRight_eq_div_pow,
    Nat.shiftLeft_eq, Nat.shiftLeft_eq, Nat.mod_eq_of_lt hle]
  simp

/-- A word matches a row with `k` operand bits exactly where its `op` is the row's and the bits between are zero. -/
theorem matchesRow_layoutRow {k : Nat} (hk : k = 3 ∨ k = 16 ∨ k = 24 ∨ k = 48) (req : Request) (name : String)
    (op : BitVec 4) :
    matchesRow req (layoutRow name op k) = true ↔
      opField req = op ∧ rsvField req = 0 ∧ req.extractLsb' k (48 - k) = 0 := by
  have hreq := req.isLt
  simp only [matchesRow_layoutRow_iff_toNat, BitVec.toNat_eq, opField, rsvField, BitVec.extractLsb'_toNat,
    Nat.shiftRight_eq_div_pow]
  rcases hk with rfl | rfl | rfl | rfl <;> simp <;> omega

/-! ### At most one row -/

theorem opField_and (a b : Request) : opField (a &&& b) = opField a &&& opField b :=
  BitVec.extractLsb'_and

/-- Every mask of the table keeps all of `op`. -/
theorem opField_eq_of_matchesRow {req : Request} {row : String × Request × Request} (hmem : row ∈ opcodeTable)
    (h : matchesRow req row = true) : opField req = opField row.2.1 := by
  have hmask : ∀ r ∈ opcodeTable, opField r.2.2 = BitVec.allOnes 4 := by decide
  rw [← of_decide_eq_true h, opField_and, hmask row hmem, BitVec.and_allOnes]

theorem opcodeTable_nodup : opcodeTable.Nodup := by decide

theorem row_eq_of_opField_eq : ∀ r ∈ opcodeTable, ∀ r' ∈ opcodeTable, opField r.2.1 = opField r'.2.1 → r = r' := by
  decide

/-- A word that matches one row matches no second one, since each row has its own `op`. -/
theorem matchingMnemonics_eq_singleton {req : Request} {row : String × Request × Request} (hmem : row ∈ opcodeTable)
    (h : matchesRow req row = true) : matchingMnemonics req = [row.1] := by
  have honly : ∀ r ∈ opcodeTable, matchesRow req r = (r == row) := fun r hr => by
    rw [Bool.eq_iff_iff, beq_iff_eq]
    refine ⟨fun hmatch => row_eq_of_opField_eq r hr row hmem ?_, fun heq => heq ▸ h⟩
    rw [← opField_eq_of_matchesRow hr hmatch, opField_eq_of_matchesRow hmem h]
  rw [matchingMnemonics, List.filter_congr honly, List.filter_beq, List.count_eq_one_of_mem opcodeTable_nodup hmem]
  rfl

/-! ### Rows and operations -/

theorem HasLayout.exists_matchesRow {req : Request} {i : Instr} (hrsv : rsvField req = 0) (h : HasLayout req i) :
    ∃ row ∈ opcodeTable, row.1 = i.mnemonic ∧ matchesRow req row = true := by
  rw [opcodeTable_eq_layoutRows]
  cases h with
  | crc8 hop hunused =>
    exact ⟨layoutRow "CRC8" 1 16, by simp, rfl, (matchesRow_layoutRow (by simp) ..).mpr ⟨hop, hrsv, hunused⟩⟩
  | chk hop hunused =>
    exact ⟨layoutRow "CHK" 2 24, by simp, rfl, (matchesRow_layoutRow (by simp) ..).mpr ⟨hop, hrsv, hunused⟩⟩
  | enc hop hunused _ =>
    exact ⟨layoutRow "ENC" 3 3, by simp, rfl, (matchesRow_layoutRow (by simp) ..).mpr ⟨hop, hrsv, hunused⟩⟩
  | hum hop hunused =>
    exact ⟨layoutRow "HUM" 4 16, by simp, rfl, (matchesRow_layoutRow (by simp) ..).mpr ⟨hop, hrsv, hunused⟩⟩
  | temp hop hunused =>
    exact ⟨layoutRow "TEMP" 5 16, by simp, rfl, (matchesRow_layoutRow (by simp) ..).mpr ⟨hop, hrsv, hunused⟩⟩
  | meas hop =>
    have hunused : req.extractLsb' 48 0 = 0 := BitVec.of_length_zero
    exact ⟨layoutRow "MEAS" 6 48, by simp, rfl, (matchesRow_layoutRow (by simp) ..).mpr ⟨hop, hrsv, hunused⟩⟩

/-- The mask of the `ENC` row alone does not tell all of its operation's layout: the two indices that name no Command are left. -/
theorem legal_or_enc_of_matchesRow {req : Request} {row : String × Request × Request} (hmem : row ∈ opcodeTable)
    (h : matchesRow req row = true) :
    legal req = true ∨ row.1 = "ENC" ∧ (cmdField req = 6 ∨ cmdField req = 7) := by
  simp only [opcodeTable_eq_layoutRows, List.mem_cons, List.not_mem_nil, or_false] at hmem
  rcases hmem with rfl | rfl | rfl | rfl | rfl | rfl <;>
    obtain ⟨hop, hrsv, hunused⟩ := (matchesRow_layoutRow (by simp) ..).mp h
  · exact .inl ((HasLayout.crc8 hop hunused).legal_eq_true hrsv)
  · exact .inl ((HasLayout.chk hop hunused).legal_eq_true hrsv)
  · cases hcmd : commandIndexOk (cmdField req) with
    | true => exact .inl ((HasLayout.enc hop hunused hcmd).legal_eq_true hrsv)
    | false => exact .inr ⟨rfl, (commandIndexOk_eq_false_iff _).mp hcmd⟩
  · exact .inl ((HasLayout.hum hop hunused).legal_eq_true hrsv)
  · exact .inl ((HasLayout.temp hop hunused).legal_eq_true hrsv)
  · exact .inl ((HasLayout.meas hop).legal_eq_true hrsv)

theorem matchingMnemonics_of_decode {req : Request} {i : Instr} (h : decode req = .instr i) :
    matchingMnemonics req = [i.mnemonic] := by
  obtain ⟨hrsv, hlayout⟩ := decode_eq_instr_iff.mp h
  obtain ⟨row, hmem, hname, hmatch⟩ := hlayout.exists_matchesRow hrsv
  rw [matchingMnemonics_eq_singleton hmem hmatch, hname]

theorem matchingMnemonics_of_not_legal {req : Request} (h : legal req = false) :
    matchingMnemonics req = [] ∨ matchingMnemonics req = ["ENC"] ∧ (cmdField req = 6 ∨ cmdField req = 7) := by
  by_cases hrow : ∃ row ∈ opcodeTable, matchesRow req row = true
  · obtain ⟨row, hmem, hmatch⟩ := hrow
    obtain hlegal | ⟨hname, hcmd⟩ := legal_or_enc_of_matchesRow hmem hmatch
    · exact absurd hlegal (Bool.eq_false_iff.mp h)
    · exact .inr ⟨by rw [matchingMnemonics_eq_singleton hmem hmatch, hname], hcmd⟩
  · left
    rw [matchingMnemonics, List.map_eq_nil_iff, List.filter_eq_nil_iff]
    exact fun row hmem hmatch => hrow ⟨row, hmem, hmatch⟩

/-- Settles O13: predicate, decoder and rows are each equivalent to the fields of a layout, but for the `ENC` row's index. -/
theorem legalWordsMatchOneTableRow : Obligations.LegalWordsMatchOneTableRow := fun req =>
  ⟨legal_iff_exists_decode req, fun _ => matchingMnemonics_of_decode, matchingMnemonics_of_not_legal⟩

end Sys2Proof.Proofs
end

section
/-! The checksum (spec/41_checksum.md R103 to R108). A round is linear over GF(2), so whether a triplet passes depends on a linear
map of its 24 bits, the syndrome, alone; which errors are detected is then a question about the syndrome of the error. -/

namespace Sys2Proof.Proofs

open Sys2Proof.Machine Sys2Proof.Laws

/-! ### The rounds are linear -/

/-- What a round feeds back: the polynomial when the bit that the shift discards is 1. -/
def feedback (discarded : Bool) : Byte := if discarded then polynomial else 0

theorem crcRound_eq_shift_xor_feedback (acc : Byte) : crcRound acc = (acc <<< 1) ^^^ feedback acc.msb := by
  rw [crcRound_eq]
  cases acc.msb
  · exact (xor_zero _).symm
  · rfl

theorem feedback_xor (p q : Bool) : feedback (p ^^ q) = feedback p ^^^ feedback q := by
  revert p q; decide

theorem crcRound_xor (a b : Byte) : crcRound (a ^^^ b) = crcRound a ^^^ crcRound b := by
  simp only [crcRound_eq_shift_xor_feedback, BitVec.msb_xor, BitVec.shiftLeft_xor_distrib, feedback_xor]
  ac_rfl

theorem crcRounds_eq_iterate (k : Nat) (acc : Byte) : crcRounds k acc = crcRound^[k] acc := by
  induction k generalizing acc with
  | zero => rfl
  | succ k ih => exact ih (crcRound acc)

theorem crcRounds_crcRounds (m n : Nat) (acc : Byte) : crcRounds m (crcRounds n acc) = crcRounds (m + n) acc := by
  simp only [crcRounds_eq_iterate, Function.iterate_add_apply]

theorem crcRounds_xor (k : Nat) (a b : Byte) : crcRounds k (a ^^^ b) = crcRounds k a ^^^ crcRounds k b := by
  induction k generalizing a b with
  | zero => rfl
  | succ k ih => simp only [crcRounds, crcRound_xor, ih]

/-- The seed enters once, as the constant `crc8 0 0`. -/
theorem crc8_eq_xor (b0 b1 : Byte) : crc8 b0 b1 = crcRounds 16 b0 ^^^ crcRounds 8 b1 ^^^ 0x81 := by
  have hseed : crcRounds 16 seed = 0x81 := by decide +kernel
  calc crc8 b0 b1 = crcRounds 8 (crcRounds 8 (seed ^^^ b0) ^^^ b1) := rfl
    _ = crcRounds 16 seed ^^^ crcRounds 16 b0 ^^^ crcRounds 8 b1 := by simp only [crcRounds_xor, crcRounds_crcRounds]
    _ = crcRounds 16 b0 ^^^ crcRounds 8 b1 ^^^ 0x81 := by rw [hseed]; ac_rfl

theorem crc8_xor_const (b0 b1 : Byte) : crc8 b0 b1 ^^^ 0x81 = crcRounds 16 b0 ^^^ crcRounds 8 b1 := by
  rw [crc8_eq_xor, xor_cancel_right]

theorem firstByte_xor (a b : Halfword) : firstByte (a ^^^ b) = firstByte a ^^^ firstByte b := BitVec.extractLsb'_xor

theorem secondByte_xor (a b : Halfword) : secondByte (a ^^^ b) = secondByte a ^^^ secondByte b := BitVec.extractLsb'_xor

/-! ### What the two operations answer -/

theorem crcRounds_eight_eq_tableRound (x : Byte) : crcRounds 8 x = tableRound x := by
  revert x; decide +kernel

theorem crc8_eq_tableRound (b0 b1 : Byte) : crc8 b0 b1 = tableRound (tableRound (0xFF ^^^ b0) ^^^ b1) := by
  simp only [crc8_eq, crcByte, crcRounds_eight_eq_tableRound, seed]

/-- Settles O18: the table by evaluating its 256 entries, and `CRC8` through it. -/
theorem crc8AnswersTheTableChecksum : Obligations.Crc8AnswersTheTableChecksum :=
  ⟨crcRounds_eight_eq_tableRound, fun b0 b1 s => by rw [exec_crc8, crc8_eq_tableRound]; rfl⟩

/-- Settles O19: the two outcomes of `checksumPasses`. -/
theorem chkAcceptsExactlyTheChecksum : Obligations.ChkAcceptsExactlyTheChecksum := by
  intro b0 b1 s
  constructor
  · have hpass : checksumPasses b0 b1 (crc8 b0 b1) = true := (checksumPasses_iff _ _ _).mpr rfl
    rw [exec_chk, instrResponse, if_pos hpass]
    rfl
  · intro c hc
    have hfail : ¬ checksumPasses b0 b1 c = true := fun h => hc ((checksumPasses_iff _ _ _).mp h).symm
    rw [exec_chk, instrResponse, if_neg hfail]
    rfl

/-- The linear part of the checksum of a 16-bit value. -/
theorem crc8Of_xor_const (x : Halfword) :
    crc8Of x ^^^ 0x81 = crcRounds 16 (firstByte x) ^^^ crcRounds 8 (secondByte x) := crc8_xor_const _ _

/-- A constant that enters twice is gone. -/
theorem xor_xor_xor_cancel (x y k : Byte) : (x ^^^ k) ^^^ (y ^^^ k) = x ^^^ y := by
  calc (x ^^^ k) ^^^ (y ^^^ k) = (x ^^^ y) ^^^ (k ^^^ k) := by ac_rfl
    _ = x ^^^ y := by rw [BitVec.xor_self, BitVec.xor_zero]

/-- Settles O20: both sides are the linear part of `a ^ b`, the constant having gone. -/
theorem checksumIsAffine : Obligations.ChecksumIsAffine := by
  intro a b
  have hzero : crc8Of 0x0000 = 0x81 := by decide +kernel
  refine ⟨?_, hzero⟩
  calc crc8Of a ^^^ crc8Of b = (crc8Of a ^^^ 0x81) ^^^ (crc8Of b ^^^ 0x81) := (xor_xor_xor_cancel _ _ _).symm
    _ = crc8Of (a ^^^ b) ^^^ 0x81 := by
      simp only [crc8Of_xor_const, firstByte_xor, secondByte_xor, crcRounds_xor]; ac_rfl
    _ = crc8Of (a ^^^ b) ^^^ crc8Of 0x0000 := by rw [hzero]

/-! ### The syndrome of a triplet -/

/-- The linear part of the check (R104, R106): the checksum of the data without its constant, XOR the checksum of the triplet. -/
def syndrome (t : BitVec 24) : Byte :=
  crcRounds 16 (t.extractLsb' 16 8) ^^^ crcRounds 8 (t.extractLsb' 8 8) ^^^ t.extractLsb' 0 8

theorem syndrome_xor (a b : BitVec 24) : syndrome (a ^^^ b) = syndrome a ^^^ syndrome b := by
  simp only [syndrome, BitVec.extractLsb'_xor, crcRounds_xor]
  ac_rfl

theorem syndrome_eq (t : BitVec 24) :
    syndrome t = crc8 (t.extractLsb' 16 8) (t.extractLsb' 8 8) ^^^ 0x81 ^^^ t.extractLsb' 0 8 := by
  rw [crc8_xor_const, syndrome]

theorem tripletPasses_iff_syndrome (t : BitVec 24) : tripletPasses t = true ↔ syndrome t = 0x81 := by
  rw [tripletPasses, decide_eq_true_iff, syndrome_eq, xor_eq_iff_left_eq, xor_comm 0x81, BitVec.xor_left_inj]

/-- An error on a passing triplet goes undetected exactly when its own syndrome is zero, whatever the data (R107). -/
theorem tripletPasses_xor_iff {t : BitVec 24} (ht : tripletPasses t = true) (e : BitVec 24) :
    tripletPasses (t ^^^ e) = true ↔ syndrome e = 0 := by
  rw [tripletPasses_iff_syndrome] at ht ⊢
  rw [syndrome_xor, ht, xor_left_eq_self_iff]

theorem extractLsb'_extractLsb' {w start len i n : Nat} (x : BitVec w) (h : i + n ≤ len) :
    (x.extractLsb' start len).extractLsb' i n = x.extractLsb' (start + i) n := by
  ext k hk
  simp [show i + k < len by omega, Nat.add_assoc]

theorem firstByte_extractLsb' (e : BitVec 24) : firstByte (e.extractLsb' 8 16) = e.extractLsb' 16 8 :=
  extractLsb'_extractLsb' e (by decide)

theorem secondByte_extractLsb' (e : BitVec 24) : secondByte (e.extractLsb' 8 16) = e.extractLsb' 8 8 :=
  extractLsb'_extractLsb' e (by decide)

theorem syndrome_eq_zero_iff (e : BitVec 24) :
    syndrome e = 0 ↔ e.extractLsb' 0 8 = crc8Of (e.extractLsb' 8 16) ^^^ 0x81 := by
  rw [crc8Of_xor_const, firstByte_extractLsb', secondByte_extractLsb', syndrome, xor_eq_zero_iff, eq_comm]

/-! ### Odd weights: the syndrome keeps the parity of an error -/

/-- How many bits are 1. -/
def bitCount {w : Nat} (x : BitVec w) : Nat := (List.range w).countP fun i => x.getLsbD i

theorem weight_eq_bitCount (e : BitVec 24) : weight e = bitCount e := List.countP_eq_length_filter.symm

theorem countP_xor_mod_two (p q : Nat → Bool) (l : List Nat) :
    l.countP (fun i => p i ^^ q i) % 2 = (l.countP p + l.countP q) % 2 := by
  induction l with
  | nil => rfl
  | cons i l ih =>
    simp only [List.countP_cons]
    cases p i <;> cases q i <;> simp <;> omega

theorem bitCount_xor_mod_two {w : Nat} (x y : BitVec w) : bitCount (x ^^^ y) % 2 = (bitCount x + bitCount y) % 2 := by
  simp only [bitCount, BitVec.getLsbD_xor]
  exact countP_xor_mod_two _ _ _

/-- The polynomial has an odd number of bits, so that feeding it back makes up for the 1 that the shift discards. -/
theorem bitCount_crcRound_mod_two (acc : Byte) : bitCount (crcRound acc) % 2 = bitCount acc % 2 := by
  revert acc; decide +kernel

theorem bitCount_crcRounds_mod_two (k : Nat) (acc : Byte) : bitCount (crcRounds k acc) % 2 = bitCount acc % 2 := by
  induction k generalizing acc with
  | zero => rfl
  | succ k ih => exact (ih (crcRound acc)).trans (bitCount_crcRound_mod_two acc)

theorem countP_getLsbD_add {w : Nat} (x : BitVec w) (start len : Nat) :
    (List.range (start + len)).countP (fun i => x.getLsbD i) =
      (List.range start).countP (fun i => x.getLsbD i) + bitCount (x.extractLsb' start len) := by
  rw [List.range_add, List.countP_append, List.countP_map, bitCount]
  congr 1
  refine List.countP_congr fun i hi => ?_
  simp [List.mem_range.mp hi]

theorem bitCount_bytes (e : BitVec 24) :
    bitCount e = bitCount (e.extractLsb' 0 8) + bitCount (e.extractLsb' 8 8) + bitCount (e.extractLsb' 16 8) := by
  rw [bitCount, countP_getLsbD_add e 16 8, countP_getLsbD_add e 8 8, countP_getLsbD_add e 0 8]
  simp

theorem bitCount_syndrome_mod_two (e : BitVec 24) : bitCount (syndrome e) % 2 = weight e % 2 := by
  have hfirst := bitCount_crcRounds_mod_two 16 (e.extractLsb' 16 8)
  have hsecond := bitCount_crcRounds_mod_two 8 (e.extractLsb' 8 8)
  have hdata := bitCount_xor_mod_two (crcRounds 16 (e.extractLsb' 16 8)) (crcRounds 8 (e.extractLsb' 8 8))
  have htriplet := bitCount_xor_mod_two (crcRounds 16 (e.extractLsb' 16 8) ^^^ crcRounds 8 (e.extractLsb' 8 8))
    (e.extractLsb' 0 8)
  rw [weight_eq_bitCount, bitCount_bytes, syndrome]
  omega

theorem syndrome_ne_zero_of_odd_weight {e : BitVec 24} (h : weight e % 2 = 1) : syndrome e ≠ 0 := by
  intro hzero
  have hparity := bitCount_syndrome_mod_two e
  rw [hzero, h] at hparity
  exact absurd hparity (by decide)

/-! ### Weight 2: no two single-bit errors have one syndrome -/

/-- The error in bit `i` alone has the syndrome of `i` rounds on the byte 1, in the data as in the checksum. -/
theorem syndrome_oneBit : ∀ i < 24, syndrome (oneBit i) = crcRounds i 1 := by
  decide +kernel

theorem crcRounds_one_inj {i j : Nat} (hi : i < 24) (hj : j < 24) (h : crcRounds i 1 = crcRounds j 1) : i = j := by
  have hnodup : ((List.range 24).map fun i => crcRounds i 1).Nodup := by decide +kernel
  exact List.inj_on_of_nodup_map hnodup (List.mem_range.mpr hi) (List.mem_range.mpr hj) h

theorem getLsbD_oneBit (i k : Nat) : (oneBit i).getLsbD k = (decide (k < 24) && decide (k = i)) := by
  simp only [oneBit, BitVec.getLsbD_shiftLeft, BitVec.getLsbD_one]
  grind

theorem exists_oneBits_of_weight_two {e : BitVec 24} (h : weight e = 2) :
    ∃ i j, i < 24 ∧ j < 24 ∧ i ≠ j ∧ e = oneBit i ^^^ oneBit j := by
  obtain ⟨i, j, hij⟩ := List.length_eq_two.mp h
  have hmem : ∀ k, (k < 24 ∧ e.getLsbD k = true) ↔ k = i ∨ k = j := fun k => by
    rw [← List.mem_range, ← List.mem_filter, hij]; simp
  have hne : i ≠ j := by
    have hnodup := (List.nodup_range (n := 24)).filter fun i => e.getLsbD i
    simpa [hij] using hnodup
  refine ⟨i, j, ((hmem i).mpr (.inl rfl)).1, ((hmem j).mpr (.inr rfl)).1, hne, BitVec.eq_of_getLsbD_eq fun k hk => ?_⟩
  have hk' := hmem k
  rw [BitVec.getLsbD_xor, getLsbD_oneBit, getLsbD_oneBit]
  grind

theorem syndrome_ne_zero_of_weight_two {e : BitVec 24} (h : weight e = 2) : syndrome e ≠ 0 := by
  obtain ⟨i, j, hi, hj, hne, rfl⟩ := exists_oneBits_of_weight_two h
  rw [syndrome_xor, syndrome_oneBit i hi, syndrome_oneBit j hj]
  exact fun hzero => hne (crcRounds_one_inj hi hj (xor_eq_zero_iff.mp hzero))

/-! ### Weight 4: counting the undetected patterns -/

theorem oneBits_or_eq_xor {i j k l : Nat} (hj : j < i) (hk : k < j) (hl : l < k) :
    oneBit i ||| oneBit j ||| oneBit k ||| oneBit l = oneBit i ^^^ oneBit j ^^^ oneBit k ^^^ oneBit l := by
  refine BitVec.eq_of_getLsbD_eq fun n hn => ?_
  simp only [BitVec.getLsbD_or, BitVec.getLsbD_xor, getLsbD_oneBit]
  grind

theorem syndrome_oneBits_eq_zero_iff {i j k l : Nat} (hi : i < 24) (hj : j < i) (hk : k < j) (hl : l < k) :
    syndrome (oneBit i ||| oneBit j ||| oneBit k ||| oneBit l) = 0 ↔
      crcRounds l 1 = crcRounds i 1 ^^^ crcRounds j 1 ^^^ crcRounds k 1 := by
  rw [oneBits_or_eq_xor hj hk hl, syndrome_xor, syndrome_xor, syndrome_xor, syndrome_oneBit i hi,
    syndrome_oneBit j (by omega), syndrome_oneBit k (by omega), syndrome_oneBit l (by omega), xor_eq_zero_iff, eq_comm]

/-- How many sets of four bit positions have syndromes that cancel. -/
def cancellingQuadruples : Nat :=
  ((List.range 24).map fun i => ((List.range i).map fun j => ((List.range j).map fun k =>
    (List.range k).countP fun l => crcRounds l 1 = crcRounds i 1 ^^^ crcRounds j 1 ^^^ crcRounds k 1).sum).sum).sum

theorem cancellingQuadruples_eq : cancellingQuadruples = 80 := by decide +kernel

theorem countP_syndrome_weightFourPatterns :
    weightFourPatterns.countP (fun e => syndrome e = 0) = cancellingQuadruples := by
  simp only [weightFourPatterns, List.countP_flatMap, Function.comp_def, List.countP_map]
  refine congrArg List.sum (List.map_congr_left fun i hi => congrArg List.sum (List.map_congr_left fun j hj =>
    congrArg List.sum (List.map_congr_left fun k hk => List.countP_congr fun l hl => ?_)))
  simp only [List.mem_range] at hi hj hk hl
  simp only [decide_eq_true_iff, syndrome_oneBits_eq_zero_iff hi hj hk hl]

/-- Settles O21: each clause is a fact about the syndrome of the error alone. -/
theorem errorDetection : Obligations.ErrorDetection := by
  intro t ht
  have hfails (e : BitVec 24) : tripletPasses (t ^^^ e) = false ↔ syndrome e ≠ 0 := by
    rw [← Bool.not_eq_true, tripletPasses_xor_iff ht]
  refine ⟨fun e => ⟨?_, fun hpos hle => ?_, fun hodd => ?_⟩, ?_⟩
  · rw [hfails, Ne, syndrome_eq_zero_iff]
  · rw [hfails]
    obtain hodd | htwo : weight e % 2 = 1 ∨ weight e = 2 := by omega
    · exact syndrome_ne_zero_of_odd_weight hodd
    · exact syndrome_ne_zero_of_weight_two htwo
  · exact (hfails e).mpr (syndrome_ne_zero_of_odd_weight hodd)
  · rw [← List.countP_eq_length_filter, ← cancellingQuadruples_eq, ← countP_syndrome_weightFourPatterns]
    exact List.countP_congr fun e _ => by rw [tripletPasses_xor_iff ht, decide_eq_true_iff]

end Sys2Proof.Proofs
end

section
/-! The command codec (spec/42_command.md R120, R124). What `ENC` answers is a fact about the command code ROM, whose six entries
are distinct and not zero. -/

namespace Sys2Proof.Proofs

open Sys2Proof.Machine Sys2Proof.Laws

/-! ### The command code ROM -/

theorem romLookup_eq_wireCodeOf {cmd : CommandIndex} (h : cmd.toNat ≤ 5) : romLookup cmd = some (wireCodeOf cmd) := by
  revert cmd; decide

theorem romLookup_eq_none {cmd : CommandIndex} (h : cmd = 6 ∨ cmd = 7) : romLookup cmd = none := by
  obtain rfl | rfl := h <;> rfl

theorem commandRom_nodup : commandRom.Nodup := by decide

/-- Distinct entries: a wire code has one index. -/
theorem romLookup_inj {c d : CommandIndex} {code : Halfword} (hc : romLookup c = some code) (hd : romLookup d = some code) :
    c = d := by
  obtain ⟨hlt, -⟩ := List.getElem?_eq_some_iff.mp hc
  exact BitVec.eq_of_toNat_eq ((List.getElem?_inj hlt commandRom_nodup).mp (hc.trans hd.symm))

theorem ne_zero_of_romLookup {cmd : CommandIndex} {code : Halfword} (h : romLookup cmd = some code) : code ≠ 0 := by
  have hrom : ∀ v ∈ commandRom, v ≠ 0 := by simp [commandRom]
  exact hrom code (List.mem_of_getElem? h)

/-! ### A result holds the whole code -/

theorem zext64_inj {n : Nat} (hn : n ≤ 64) {v w : BitVec n} : zext64 v = zext64 w ↔ v = w := by
  simp only [zext64, BitVec.toNat_eq, BitVec.toNat_setWidth_of_le hn]

theorem zext64_eq_zero_iff {n : Nat} (hn : n ≤ 64) {v : BitVec n} : zext64 v = 0 ↔ v = 0 := by
  simpa [zext64] using zext64_inj hn (v := v) (w := 0)

/-! ### What `ENC` answers -/

/-- Settles O22: the index has its entry of the ROM, or none. -/
theorem encAnswersTheWireCode : Obligations.EncAnswersTheWireCode := fun _ s =>
  ⟨fun h => exec_enc_of_some (romLookup_eq_wireCodeOf h) s, fun h => exec_enc_of_none (romLookup_eq_none h) s⟩

theorem response_of_exec_enc {cmd : CommandIndex} {code : Halfword} {s t : State} (hcode : romLookup cmd = some code)
    (h : exec (.enc cmd) s = .next t) : t.response = some (okResponse (zext64 code)) := by
  rw [exec_enc_of_some hcode] at h
  cases h
  rfl

/-- Settles O23: equal responses carry equal codes, and a code stands at one index of the ROM. -/
theorem encIsInjective : Obligations.EncIsInjective := by
  intro c d s t u hc hd ht hu
  have hromc := romLookup_eq_wireCodeOf hc
  have hromd := romLookup_eq_wireCodeOf hd
  rw [response_of_exec_enc hromc ht, response_of_exec_enc hromd hu]
  constructor
  · intro heq
    have hresult : zext64 (wireCodeOf c) = zext64 (wireCodeOf d) := congrArg Response.result (Option.some.inj heq)
    have hcode : wireCodeOf c = wireCodeOf d := (zext64_inj (by decide)).mp hresult
    exact romLookup_inj hromc (hcode ▸ hromd)
  · rintro r ⟨⟩
    exact (zext64_eq_zero_iff (by decide)).not.mpr (ne_zero_of_romLookup hromc)

end Sys2Proof.Proofs
end

section
/-! The measurement frame (spec/44_measurement.md R163). `MEAS` and the single operations decide by the same checks and convert by
the same formulas, so the equivalence is read off the five responses. -/

namespace Sys2Proof.Proofs

open Sys2Proof.Machine Sys2Proof.Laws

/-! ### The status of a checked operation -/

/-- Of the two responses that a check decides between, `OK` is the one for a pass (R72). -/
theorem status_ite_eq_ok_iff {p : Prop} [Decidable p] (result : ResultWord) :
    (if p then okResponse result else integrityResponse).status = statusOk ↔ p := by
  by_cases h : p
  · simp [h, okResponse]
  · simp [h, integrityResponse, statusIntegrity, statusOk]

theorem status_chk_eq_ok_iff (b0 b1 c : Byte) :
    (instrResponse (.chk b0 b1 c)).status = statusOk ↔ checksumPasses b0 b1 c = true :=
  status_ite_eq_ok_iff _

theorem status_meas_eq_ok_iff (h0 h1 hc t0 t1 tc : Byte) :
    (instrResponse (.meas h0 h1 hc t0 t1 tc)).status = statusOk ↔
      (checksumPasses h0 h1 hc && checksumPasses t0 t1 tc) = true :=
  status_ite_eq_ok_iff _

/-- The frame is valid exactly when both its triplets are (R162). -/
theorem status_meas_eq_ok_iff_chk (h0 h1 hc t0 t1 tc : Byte) :
    (instrResponse (.meas h0 h1 hc t0 t1 tc)).status = statusOk ↔
      (instrResponse (.chk h0 h1 hc)).status = statusOk ∧ (instrResponse (.chk t0 t1 tc)).status = statusOk := by
  rw [status_meas_eq_ok_iff, status_chk_eq_ok_iff, status_chk_eq_ok_iff, Bool.and_eq_true]

/-! ### The result of `MEAS` -/

theorem result_meas_of_ok {h0 h1 hc t0 t1 tc : Byte}
    (hok : (instrResponse (.meas h0 h1 hc t0 t1 tc)).status = statusOk) :
    (instrResponse (.meas h0 h1 hc t0 t1 tc)).result = humBits (halfwordOf h0 h1) ++ tempBits (halfwordOf t0 t1) := by
  rw [instrResponse, if_pos ((status_meas_eq_ok_iff h0 h1 hc t0 t1 tc).mp hok), okResponse]

theorem instrResponse_meas_of_not_ok {h0 h1 hc t0 t1 tc : Byte}
    (hfail : (instrResponse (.meas h0 h1 hc t0 t1 tc)).status ≠ statusOk) :
    instrResponse (.meas h0 h1 hc t0 t1 tc) = integrityResponse := by
  rw [instrResponse, if_neg (mt (status_meas_eq_ok_iff h0 h1 hc t0 t1 tc).mpr hfail)]

/-! ### The halves of a result -/

theorem extractLsb'_zext64 {n : Nat} (hn : n ≤ 64) (v : BitVec n) : (zext64 v).extractLsb' 0 n = v := by
  rw [zext64, BitVec.extractLsb'_setWidth_of_le (by omega), BitVec.extractLsb'_eq_self]

theorem extractLsb'_append_high (h t : FloatBits) : (h ++ t : ResultWord).extractLsb' 32 32 = h := by
  rw [BitVec.extractLsb'_append_eq_of_le (by decide), BitVec.extractLsb'_eq_self]

theorem extractLsb'_append_low (h t : FloatBits) : (h ++ t : ResultWord).extractLsb' 0 32 = t := by
  rw [BitVec.extractLsb'_append_eq_of_add_le (by decide), BitVec.extractLsb'_eq_self]

/-- `result[63:32]` and `result[31:0]` of a valid frame are what `HUM` and `TEMP` answer for its two raw codes (R163). -/
theorem result_meas_halves {h0 h1 hc t0 t1 tc : Byte}
    (hok : (instrResponse (.meas h0 h1 hc t0 t1 tc)).status = statusOk) :
    (instrResponse (.meas h0 h1 hc t0 t1 tc)).result.extractLsb' 32 32 =
        (instrResponse (.hum (halfwordOf h0 h1))).result.extractLsb' 0 32 ∧
      (instrResponse (.meas h0 h1 hc t0 t1 tc)).result.extractLsb' 0 32 =
        (instrResponse (.temp (halfwordOf t0 t1))).result.extractLsb' 0 32 := by
  rw [result_meas_of_ok hok, extractLsb'_append_high, extractLsb'_append_low]
  exact ⟨(extractLsb'_zext64 (by decide) _).symm, (extractLsb'_zext64 (by decide) _).symm⟩

/-- Settles O34: each operation answers with its own response, and the responses are compared above. -/
theorem measIsTheFourSingleOperations : Obligations.MeasIsTheFourSingleOperations :=
  fun h0 h1 hc t0 t1 tc s =>
    ⟨instrResponse (.meas h0 h1 hc t0 t1 tc), instrResponse (.chk h0 h1 hc), instrResponse (.chk t0 t1 tc),
      instrResponse (.hum (halfwordOf h0 h1)), instrResponse (.temp (halfwordOf t0 t1)),
      exec_eq_responded _ s, exec_eq_responded _ s, exec_eq_responded _ s, exec_eq_responded _ s, exec_eq_responded _ s,
      status_meas_eq_ok_iff_chk h0 h1 hc t0 t1 tc, result_meas_halves, instrResponse_meas_of_not_ok⟩

end Sys2Proof.Proofs
end

section
/-! The Sensor Controller's transmissions (spec/60_exceptions.md R220, R229): which command codes a piece of a host operation can
transmit. Sleep is none of those of steps 1 to 4 of ReadMeasurement, so the Sleep of step 5 is the only one. -/

namespace Sys2Proof.Proofs

open Sys2Proof.Machine Sys2Proof.Laws

/-! ### Sending a Command -/

/-- The transmission of a Command's wire code (R120, R123). -/
def commandTransmission (c : Command) : HostAction := transmitCode (wireCodeOf (commandIndex c))

theorem commandTransmission_sleep : commandTransmission .sleep = .transmit 0xE0 [0xB0, 0x98] 1000 := by decide

theorem commandTransmission_wakeup_ne_sleep : commandTransmission .wakeup ≠ commandTransmission .sleep := by decide

theorem commandTransmission_measureHumidityFirst_ne_sleep :
    commandTransmission .measureHumidityFirst ≠ commandTransmission .sleep := by decide

@[simp] theorem assumed_ne_commandTransmission (power : Option SensorPower) (c : Command) :
    .assumed power ≠ commandTransmission c := nofun

@[simp] theorem transaction_ne_commandTransmission (req : Request) (resp : Response) (c : Command) :
    .transaction req resp ≠ commandTransmission c := nofun

theorem romLookup_commandIndex (c : Command) : romLookup (commandIndex c) = some (wireCodeOf (commandIndex c)) :=
  romLookup_eq_wireCodeOf (by cases c <;> decide)

theorem log_busAction (act : HostAction) (reply : Ack) : (busAction act reply).log = [act] := by
  cases reply <;> rfl

/-- The actions of sending a Command do not depend on the transport's answer. -/
theorem log_sendCommand (c : Command) (reply : Ack) : (sendCommand c reply).log =
    [.transaction (encRequest c) ⟨statusOk, zext64 (wireCodeOf (commandIndex c))⟩, commandTransmission c] := by
  rw [sendCommand_eq, stageThen_ok _ _ () rfl, romLookup_commandIndex, log_busAction]
  rfl

/-! ### What a list of actions transmits -/

/-- Each transmission among the actions is that of one of the Commands `cs` (R220). -/
def TransmitsOnly (cs : List Command) (log : List HostAction) : Prop :=
  ∀ address bytes ms, .transmit address bytes ms ∈ log → ∃ c ∈ cs, .transmit address bytes ms = commandTransmission c

theorem transmitsOnly_nil (cs : List Command) : TransmitsOnly cs [] := by simp [TransmitsOnly]

theorem transmitsOnly_transaction (cs : List Command) (req : Request) (resp : Response) :
    TransmitsOnly cs [.transaction req resp] := by simp [TransmitsOnly]

theorem transmitsOnly_receive (cs : List Command) (address : Byte) (byteCount ms : Nat) :
    TransmitsOnly cs [.receive address byteCount ms] := by simp [TransmitsOnly]

theorem transmitsOnly_assumed (cs : List Command) (power : Option SensorPower) :
    TransmitsOnly cs [.assumed power] := by simp [TransmitsOnly]

theorem transmitsOnly_delay_assumed (cs : List Command) (n : Nat) (power : Option SensorPower) :
    TransmitsOnly cs [.delayMicroseconds n, .assumed power] := by simp [TransmitsOnly]

theorem TransmitsOnly.append {cs : List Command} {a b : List HostAction} (ha : TransmitsOnly cs a)
    (hb : TransmitsOnly cs b) : TransmitsOnly cs (a ++ b) := fun address bytes ms hmem =>
  (List.mem_append.mp hmem).elim (ha address bytes ms) (hb address bytes ms)

theorem TransmitsOnly.stageThen {α β : Type} {cs : List Command} {x : Stage α} {k : α → Stage β}
    (hx : TransmitsOnly cs x.log) (hk : ∀ a, TransmitsOnly cs (k a).log) : TransmitsOnly cs (stageThen x k).log := by
  cases hout : x.outcome with
  | ok a => rw [stageThen_ok x k a hout]; exact hx.append (hk a)
  | error e => rw [stageThen_error x k e hout]; exact hx

theorem TransmitsOnly.not_mem {cs : List Command} {log : List HostAction} (h : TransmitsOnly cs log) {d : Command}
    (hd : ∀ c ∈ cs, commandTransmission c ≠ commandTransmission d) : commandTransmission d ∉ log := fun hmem => by
  obtain ⟨c, hc, heq⟩ := h _ _ _ hmem
  exact hd c hc heq.symm

/-! ### What the pieces of ReadMeasurement transmit -/

section
variable (cs : List Command)

/-- Asking the block is no transmission on the bus. -/
theorem transmitsOnly_askBlock (req : Request) : TransmitsOnly cs (askBlock req).log := by
  unfold askBlock
  split
  · exact transmitsOnly_nil cs
  · split_ifs <;> exact transmitsOnly_transaction cs _ _

theorem transmitsOnly_busRead {α : Type} (byteCount : Nat) (reply : Option α) :
    TransmitsOnly cs (busRead byteCount reply).log := by
  cases reply <;> exact transmitsOnly_receive cs _ _ _

theorem transmitsOnly_decodeWhole (req : Request) : TransmitsOnly cs (decodeWhole req).log :=
  (transmitsOnly_askBlock cs req).stageThen fun _ => transmitsOnly_nil cs

theorem transmitsOnly_decodePieces (f : Frame) : TransmitsOnly cs (decodePieces f).log :=
  (transmitsOnly_askBlock cs _).stageThen fun _ => (transmitsOnly_askBlock cs _).stageThen fun _ =>
    (transmitsOnly_askBlock cs _).stageThen fun _ => (transmitsOnly_askBlock cs _).stageThen fun _ => transmitsOnly_nil cs

theorem transmitsOnly_decodeFrame (p : HostParams) (c : Command) (f : Frame) :
    TransmitsOnly cs (decodeFrame p c f).log := by
  unfold decodeFrame
  split
  · exact transmitsOnly_nil cs
  · split
    · exact transmitsOnly_decodeWhole cs _
    · exact transmitsOnly_decodePieces cs f

end

theorem transmitsOnly_sendCommand {cs : List Command} {c : Command} (hc : c ∈ cs) (reply : Ack) :
    TransmitsOnly cs (sendCommand c reply).log := by
  intro address bytes ms hmem
  have heq : .transmit address bytes ms = commandTransmission c := by simpa [log_sendCommand] using hmem
  exact ⟨c, hc, heq⟩

theorem transmitsOnly_wake {cs : List Command} (hc : .wakeup ∈ cs) (p : HostParams) (reply : Ack) :
    TransmitsOnly cs (wake p reply).log :=
  (transmitsOnly_sendCommand hc reply).stageThen fun _ => transmitsOnly_delay_assumed cs _ _

/-- Steps 1 to 4 send no Command but Wakeup and MeasureHumidityFirst (R223). -/
theorem transmitsOnly_measureSteps (p : HostParams) (r : MeasurementReplies) :
    TransmitsOnly [.wakeup, .measureHumidityFirst] (measureSteps p r).log :=
  (transmitsOnly_wake (by decide) p r.wakeup).stageThen fun _ =>
    (transmitsOnly_sendCommand (by decide) r.measure).stageThen fun _ =>
      TransmitsOnly.stageThen (transmitsOnly_assumed _ _) fun _ =>
        (transmitsOnly_busRead _ 6 r.frame).stageThen fun f => transmitsOnly_decodeFrame _ p .measureHumidityFirst f

/-! ### Sleep on exit -/

theorem sleep_not_mem_measureSteps (p : HostParams) (r : MeasurementReplies) :
    commandTransmission .sleep ∉ (measureSteps p r).log :=
  (transmitsOnly_measureSteps p r).not_mem <| by
    simp [commandTransmission_wakeup_ne_sleep, commandTransmission_measureHumidityFirst_ne_sleep]

theorem log_readMeasurement (p : HostParams) (r : MeasurementReplies) : (readMeasurement p r).log =
    .assumed (some p.powerAtStart) :: (measureSteps p r).log ++
      [.transaction (encRequest .sleep) ⟨statusOk, zext64 (wireCodeOf (commandIndex .sleep))⟩,
        commandTransmission .sleep] ++ [.assumed (some .sleeping)] := by
  rw [readMeasurement, log_sendCommand]

theorem count_sleep_readMeasurement (p : HostParams) (r : MeasurementReplies) :
    (readMeasurement p r).log.count (commandTransmission .sleep) = 1 := by
  have hsteps := List.count_eq_zero.mpr (sleep_not_mem_measureSteps p r)
  simp [log_readMeasurement, hsteps]

/-- Step 5 decides no outcome: it is that of steps 1 to 4, which do not see the answer to Sleep (R229). -/
theorem outcome_readMeasurement (p : HostParams) (r : MeasurementReplies) :
    (readMeasurement p r).outcome = (measureSteps p r).outcome := rfl

theorem measureSteps_with_sleep (p : HostParams) (r : MeasurementReplies) (ack : Ack) :
    measureSteps p { r with sleep := ack } = measureSteps p r := rfl

/-- Settles O36: steps 1 to 4 never send Sleep and step 5 always sends it once. -/
theorem readMeasurementSleepsExactlyOnce : Obligations.ReadMeasurementSleepsExactlyOnce := by
  intro p r
  refine ⟨?_, fun ack => ?_⟩
  · rw [← commandTransmission_sleep, ← List.countP_eq_length_filter]
    exact count_sleep_readMeasurement p r
  · rw [outcome_readMeasurement, outcome_readMeasurement, measureSteps_with_sleep]

end Sys2Proof.Proofs
end

section
/-! Reset, latency and a request's one response (spec/70_reset_and_hazards.md R241, R242, R256, R257), over any number of turns:
what a single turn does is known from `Laws`, and a run is those turns put one after another. -/

namespace Sys2Proof.Proofs

open Sys2Proof.Machine Sys2Proof.Laws

/-! ### When a response exists -/

/-- Settles O1: of all that a step can do, only answering the request in flight leaves a response. -/
theorem responseExistsOnlyAfterAnswer : Obligations.ResponseExistsOnlyAfterAnswer := by
  refine ⟨reset_response, fun s t h hresp => ?_⟩
  obtain ⟨_, _, _, rfl⟩ | ⟨_, _, rfl⟩ | ⟨_, rfl⟩ | ⟨_, rfl⟩ | ⟨_, _, rfl⟩ | ⟨req, hans, _⟩ := step_next h
  case inr.inr.inr.inr.inr => exact ⟨req, hans⟩
  all_goals exact absurd rfl hresp

/-! ### Runs -/

theorem run_succ_of_core_step {M : Host.Core} {s t : M.State} (h : M.step s = .next t) (k : Nat) :
    M.run (k + 1) s = M.run k t := by
  simp only [Host.Core.run, h]

theorem run_add_of_run {M : Host.Core} {m : Nat} {s t : M.State} (h : M.run m s = .next t) (k : Nat) :
    M.run (m + k) s = M.run k t := by
  induction m generalizing s with
  | zero => cases h; rw [Nat.zero_add]
  | succ m ih =>
    rw [Nat.add_right_comm]
    cases hstep : M.step s with
    | next u =>
      rw [run_succ_of_core_step hstep] at h ⊢
      exact ih h
    | fault f => simp [Host.Core.run, hstep] at h
    | refused why => simp [Host.Core.run, hstep] at h

theorem run_succ_of_step {s t : State} (h : step s = .next t) (k : Nat) :
    Host.Core.run core (k + 1) s = Host.Core.run core k t :=
  run_succ_of_core_step h k

/-- Turns that leave the request lines as they are and no response, however many of them, still leave them so. -/
theorem run_replicate_quiet {e : Event} {held : Option Request}
    (hquiet : ∀ rest, step ⟨held, none, e :: rest⟩ = .next ⟨held, none, rest⟩) (n : Nat) (rest : List Event) :
    Host.Core.run core n (⟨held, none, List.replicate n e ++ rest⟩ : State) = .next ⟨held, none, rest⟩ := by
  induction n with
  | zero => rfl
  | succ n ih => exact (run_succ_of_step (hquiet _) n).trans ih

/-! ### Reset -/

/-- The block answers the request in flight, whatever response was there before. -/
theorem step_deliver_inFlight (req : Request) (old : Option Response) (rest : List Event) :
    step ⟨some req, old, .deliver :: rest⟩ = .next ⟨none, some (wordResponse req), rest⟩ :=
  step_eq_answered ⟨rfl, rfl⟩

/-- Settles O2: after reset the block has nothing to answer, and the word's response does not depend on what was reset. -/
theorem resetDiscardsTheRequestInFlight : Obligations.ResetDiscardsTheRequestInFlight := by
  rintro ⟨_, old, _⟩ req rest rfl
  refine ⟨fun n => ⟨⟨none, none, rest⟩, ?_, rfl, rfl, rfl⟩,
    ⟨none, some (wordResponse req), rest⟩, step_deliver_inFlight req old rest, nofun, ?_⟩
  · exact (run_succ_of_step (step_assertReset rfl) n).trans
      (run_replicate_quiet (fun _ => step_deliver_idle rfl rfl) n rest)
  · have hpresent : step ⟨none, none, .present req :: .deliver :: rest⟩ = .next ⟨some req, none, .deliver :: rest⟩ :=
      (step_present rfl).trans (present_idle req _ rfl)
    calc Host.Core.run core 3 (⟨some req, old, .assertReset :: .present req :: .deliver :: rest⟩ : State)
      _ = Host.Core.run core 2 (⟨none, none, .present req :: .deliver :: rest⟩ : State) :=
        run_succ_of_step (step_assertReset rfl) 2
      _ = Host.Core.run core 1 (⟨some req, none, .deliver :: rest⟩ : State) := run_succ_of_step hpresent 1
      _ = .next ⟨none, some (wordResponse req), rest⟩ := run_succ_of_step (step_deliver_inFlight req none rest) 0

/-! ### Latency -/

/-- While cycles pass the request stays in flight and no response exists (R256). -/
theorem run_ticks_inFlight (req : Request) (old : Option Response) (k : Nat) (rest : List Event) :
    Host.Core.run core (k + 1) (⟨some req, old, List.replicate (k + 1) .tick ++ rest⟩ : State) =
      .next ⟨some req, none, rest⟩ :=
  (run_succ_of_step (step_tick rfl) k).trans (run_replicate_quiet (fun _ => step_tick rfl) k rest)

/-- After any latency the request gets its response (R257). -/
theorem run_ticks_deliver (req : Request) (old : Option Response) (n : Nat) (rest : List Event) :
    Host.Core.run core (n + 1) (⟨some req, old, List.replicate n .tick ++ .deliver :: rest⟩ : State) =
      .next ⟨none, some (wordResponse req), rest⟩ := by
  cases n with
  | zero => exact run_succ_of_step (step_deliver_inFlight req old rest) 0
  | succ k =>
    exact (run_add_of_run (run_ticks_inFlight req old k (.deliver :: rest)) 1).trans
      (run_succ_of_step (step_deliver_inFlight req none rest) 0)

/-- Settles O4: the ticks keep the request, the first turn of the block answers it, the second finds nothing to answer. -/
theorem everyRequestGetsExactlyOneResponse : Obligations.EveryRequestGetsExactlyOneResponse := by
  rintro ⟨_, old, _⟩ req n rest rfl rfl
  have hanswered := run_ticks_deliver req old n (.deliver :: rest)
  refine ⟨fun k hpos hle => ?_, ⟨_, wordResponse req, hanswered, rfl⟩, ⟨none, none, rest⟩, ?_, rfl⟩
  · obtain ⟨j, rfl⟩ := Nat.exists_eq_add_one.mpr hpos
    refine ⟨⟨some req, none, List.replicate (n - (j + 1)) .tick ++ .deliver :: .deliver :: rest⟩, ?_, rfl, rfl⟩
    rw [← Nat.add_sub_cancel' hle, List.replicate_add, List.append_assoc, Nat.add_sub_cancel_left]
    exact run_ticks_inFlight req old j _
  · exact (run_add_of_run hanswered 1).trans (run_succ_of_step (step_deliver_idle rfl rfl) 0)

end Sys2Proof.Proofs
end

section
/-! The host's waits (spec/70_reset_and_hazards.md R252, R253): a Command and the wait after it stand together in a list of
actions, and whatever the host does afterwards is added behind them. -/

namespace Sys2Proof.Proofs

open Sys2Proof.Machine Sys2Proof.Laws

/-! ### A Command with its wait -/

theorem commandTransmission_wakeup : commandTransmission .wakeup = .transmit 0xE0 [0x35, 0x17] 1000 := by decide

theorem commandTransmission_softReset : commandTransmission .softReset = .transmit 0xE0 [0x80, 0x5D] 1000 := by decide

theorem encRequest_wakeup : encRequest .wakeup = 0x3000000000000000 := by decide

theorem encRequest_softReset : encRequest .softReset = 0x3000000000000002 := by decide

/-- The actions begin with the sending of `c` and then a delay of at least `least` microseconds. -/
def StartsWithWait (c : Command) (least : Nat) (log : List HostAction) : Prop :=
  ∃ n, least ≤ n ∧ (sendCommand c .ok).log ++ [.delayMicroseconds n] <+: log

theorem StartsWithWait.mono {c : Command} {least : Nat} {log log' : List HostAction} (h : StartsWithWait c least log)
    (hprefix : log <+: log') : StartsWithWait c least log' :=
  h.imp fun _ ⟨hle, hn⟩ => ⟨hle, hn.trans hprefix⟩

theorem StartsWithWait.exists_eq {c : Command} {least : Nat} {log : List HostAction} (h : StartsWithWait c least log)
    (first : HostAction) : ∃ a resp n rest, least ≤ n ∧ first :: log =
      a :: .transaction (encRequest c) resp :: commandTransmission c :: .delayMicroseconds n :: rest := by
  obtain ⟨n, hle, rest, rfl⟩ := h
  exact ⟨first, _, n, rest, hle, by rw [log_sendCommand]; rfl⟩

/-- What a piece did stays done, whether or not the pieces after it run (R220). -/
theorem log_prefix_stageThen {α β : Type} (x : Stage α) (k : α → Stage β) : x.log <+: (stageThen x k).log := by
  cases hout : x.outcome with
  | ok a => rw [stageThen_ok x k a hout]; exact List.prefix_append _ _
  | error e => rw [stageThen_error x k e hout]; exact List.prefix_rfl

theorem outcome_sendCommand_ok (c : Command) : (sendCommand c .ok).outcome = .ok () := by
  rw [sendCommand_eq, stageThen_ok _ _ () rfl]
  rfl

theorem startsWithWait_stageThen {c : Command} {least n : Nat} (hle : least ≤ n) (after : List HostAction) :
    StartsWithWait c least
      (stageThen (sendCommand c .ok) fun _ => stageDo (.delayMicroseconds n :: after) ()).log := by
  rw [stageThen_ok _ _ () (outcome_sendCommand_ok c)]
  exact ⟨n, hle, after, List.append_assoc _ _ _⟩

/-! ### The three host operations -/

theorem startsWithWait_wake (p : HostParams) : StartsWithWait .wakeup 40 (wake p .ok).log :=
  startsWithWait_stageThen (Nat.le_add_right _ _) _

theorem startsWithWait_measureSteps (p : HostParams) {r : MeasurementReplies} (hack : r.wakeup = .ok) :
    StartsWithWait .wakeup 40 (measureSteps p r).log := by
  rw [measureSteps, hack]
  exact (startsWithWait_wake p).mono (log_prefix_stageThen _ _)

theorem startsWithWait_initSteps (p : HostParams) (wantID : Bool) {r : InitReplies} (hack : r.wakeup = .ok) :
    StartsWithWait .wakeup 40 (initSteps p wantID r).log := by
  rw [initSteps, hack]
  exact (startsWithWait_wake p).mono (log_prefix_stageThen _ _)

/-- Init does its steps after assuming its start state, and after a failure it only drops the state assumed (R222). -/
theorem log_hostInit (p : HostParams) (wantID : Bool) (r : InitReplies) :
    ∃ after, (hostInit p wantID r).log = .assumed (some p.powerAtStart) :: ((initSteps p wantID r).log ++ after) := by
  simp only [hostInit]
  split
  · exact ⟨[], by rw [List.append_nil]; rfl⟩
  · exact ⟨[.assumed none], rfl⟩

theorem log_softReset_ok (p : HostParams) (start : SensorPower) : (softReset p start .ok).log =
    .assumed (some start) :: (stageThen (sendCommand .softReset .ok) fun _ => stageDo [.delayMicroseconds
      (Config.resetWaitMinUs + p.resetSlackUs), .assumed (some p.powerAfterReset)] ()).log := by
  simp only [softReset, stageThen_ok _ _ () (outcome_sendCommand_ok .softReset)]
  rfl

/-- Settles O39: each operation assumes its start state, sends the Command and waits its minimum and a slack. -/
theorem theHostWaitsLongEnough : Obligations.TheHostWaitsLongEnough := by
  intro p
  simp only [← commandTransmission_wakeup, ← commandTransmission_softReset, ← encRequest_wakeup, ← encRequest_softReset]
  refine ⟨fun r hack => ?_, fun wantID r hack => ?_, fun start => ?_⟩
  · rw [log_readMeasurement]
    exact ((startsWithWait_measureSteps p hack).mono ((List.prefix_append _ _).trans (List.prefix_append _ _))).exists_eq _
  · obtain ⟨after, hlog⟩ := log_hostInit p wantID r
    rw [hlog]
    exact ((startsWithWait_initSteps p wantID hack).mono (List.prefix_append _ _)).exists_eq _
  · rw [log_softReset_ok]
    exact (startsWithWait_stageThen (Nat.le_add_right _ _) _).exists_eq _

end Sys2Proof.Proofs
end

section
/-! The decoder and the encoder (spec/30_encoding.md R60 to R67, R74, R76): a word with an operation's layout is the operation's
fields put one after another, and the fields of an encoded operation are read back. -/

namespace Sys2Proof.Proofs

open Sys2Proof.Machine Sys2Proof.Laws

/-! ### A word is its fields, put together -/

/-- Two fields that stand one right above the other are one field. -/
theorem extractLsb'_append_below {w : Nat} (x : BitVec w) (lo n m : Nat) :
    x.extractLsb' (lo + n) m ++ x.extractLsb' lo n = x.extractLsb' lo (m + n) :=
  BitVec.extractLsb'_append_extractLsb'_eq_extractLsb' rfl

theorem append_fields_crc8 (req : Request) :
    opField req ++ rsvField req ++ unusedAbove16 req ++ byteField req 8 ++ byteField req 0 = req := by
  unfold opField rsvField unusedAbove16 byteField
  rw [extractLsb'_append_below req 48 12 4, extractLsb'_append_below req 16 32 16, extractLsb'_append_below req 8 8 48,
    extractLsb'_append_below req 0 8 56, BitVec.extractLsb'_eq_self]

theorem append_fields_chk (req : Request) :
    opField req ++ rsvField req ++ unusedAbove24 req ++ byteField req 16 ++ byteField req 8 ++ byteField req 0 = req := by
  unfold opField rsvField unusedAbove24 byteField
  rw [extractLsb'_append_below req 48 12 4, extractLsb'_append_below req 24 24 16, extractLsb'_append_below req 16 8 40,
    extractLsb'_append_below req 8 8 48, extractLsb'_append_below req 0 8 56, BitVec.extractLsb'_eq_self]

theorem append_fields_enc (req : Request) : opField req ++ rsvField req ++ unusedAbove3 req ++ cmdField req = req := by
  unfold opField rsvField unusedAbove3 cmdField
  rw [extractLsb'_append_below req 48 12 4, extractLsb'_append_below req 3 45 16, extractLsb'_append_below req 0 3 61,
    BitVec.extractLsb'_eq_self]

theorem append_fields_raw (req : Request) : opField req ++ rsvField req ++ unusedAbove16 req ++ rawField req = req := by
  unfold opField rsvField unusedAbove16 rawField
  rw [extractLsb'_append_below req 48 12 4, extractLsb'_append_below req 16 32 16, extractLsb'_append_below req 0 16 48,
    BitVec.extractLsb'_eq_self]

theorem append_fields_meas (req : Request) :
    opField req ++ rsvField req ++ byteField req 40 ++ byteField req 32 ++ byteField req 24 ++ byteField req 16 ++
      byteField req 8 ++ byteField req 0 = req := by
  unfold opField rsvField byteField
  rw [extractLsb'_append_below req 48 12 4, extractLsb'_append_below req 40 8 16, extractLsb'_append_below req 32 8 24,
    extractLsb'_append_below req 24 8 32, extractLsb'_append_below req 16 8 40, extractLsb'_append_below req 8 8 48,
    extractLsb'_append_below req 0 8 56, BitVec.extractLsb'_eq_self]

/-! ### Both directions -/

/-- The encoder rebuilds a word from the operation whose layout it has. -/
theorem HasLayout.encode_eq {req : Request} {i : Instr} (hrsv : rsvField req = 0) (h : HasLayout req i) :
    encode i = req := by
  cases h with
  | crc8 hop hunused =>
    have hfields := append_fields_crc8 req
    rwa [hop, hrsv, hunused] at hfields
  | chk hop hunused =>
    have hfields := append_fields_chk req
    rwa [hop, hrsv, hunused] at hfields
  | enc hop hunused _ =>
    have hfields := append_fields_enc req
    rwa [hop, hrsv, hunused] at hfields
  | hum hop hunused =>
    have hfields := append_fields_raw req
    rwa [hop, hrsv, hunused] at hfields
  | temp hop hunused =>
    have hfields := append_fields_raw req
    rwa [hop, hrsv, hunused] at hfields
  | meas hop =>
    have hfields := append_fields_meas req
    rwa [hop, hrsv] at hfields

/-- The decoder reads a well-formed operation back from its encoding. -/
theorem decode_encode {i : Instr} (hwf : i.wellFormed = true) : decode (encode i) = .instr i := by
  cases i with
  | crc8 b0 b1 => simp [decode, decodeOp, decodeWhenZero]
  | chk b0 b1 c => simp [decode, decodeOp, decodeWhenZero]
  | enc cmd =>
    have hcmd : commandIndexOk cmd = true := hwf
    simp [decode, decodeOp, decodeEnc, decodeWhenZero, hcmd]
  | hum raw => simp [decode, decodeOp, decodeWhenZero]
  | temp raw => simp [decode, decodeOp, decodeWhenZero]
  | meas h0 h1 hc t0 t1 tc => simp [decode, decodeOp]

/-- Settles O10: a word that decodes has its operation's layout, and an encoding has the fields of its operation. -/
theorem decodeAndEncodeAgree : Obligations.DecodeAndEncodeAgree := by
  refine fun req i => ⟨fun h => ?_, ?_⟩
  · obtain ⟨hrsv, hlayout⟩ := decode_eq_instr_iff.mp h
    exact ⟨hlayout.wellFormed, hlayout.encode_eq hrsv⟩
  · rintro ⟨hwf, rfl⟩
    exact decode_encode hwf

/-- Settles O11: each written word is the encoding of its operation; index 6 names no Command. -/
theorem writtenWordsDecode : Obligations.WrittenWordsDecode :=
  ⟨decode_encode (i := .crc8 0x68 0x3A) rfl, decode_encode (i := .chk 0xBE 0xEF 0x92) rfl,
    decode_encode (i := .enc 5) rfl, decode_encode (i := .hum 0x8001) rfl, decode_encode (i := .temp 0x41D4) rfl,
    decode_encode (i := .meas 0x5F 0x4A 0x19 0x6E 0x3B 0x96) rfl, by decide⟩

end Sys2Proof.Proofs
end

section
/-! The transaction protocol (spec/20_memory.md R49, R50; spec/70_reset_and_hazards.md R241, R250): the invariant, the host's
duties, and the answers in either order. -/

namespace Sys2Proof.Proofs

open Sys2Proof.Machine Sys2Proof.Laws

/-! ### Proper responses -/

theorem okResponse_proper (result : ResultWord) : (okResponse result).Proper :=
  ⟨by simp [okResponse, statusOk, statusReserved], fun hfail => absurd rfl hfail⟩

theorem integrityResponse_proper : integrityResponse.Proper :=
  ⟨by simp [integrityResponse, statusIntegrity, statusReserved], fun _ => rfl⟩

theorem illegalResponse_proper : illegalResponse.Proper :=
  ⟨by simp [illegalResponse, statusIllegal, statusReserved], fun _ => rfl⟩

/-- The three kinds of response there are. -/
theorem instrResponse_cases (i : Instr) :
    (∃ result, instrResponse i = okResponse result) ∨ instrResponse i = integrityResponse ∧ i.mnemonic ∈ ["CHK", "MEAS"] ∨
      instrResponse i = illegalResponse ∧ i.wellFormed = false := by
  cases i with
  | crc8 b0 b1 => exact .inl ⟨_, rfl⟩
  | chk b0 b1 c =>
    simp only [instrResponse]
    split
    · exact .inl ⟨_, rfl⟩
    · exact .inr (.inl ⟨rfl, by simp [Instr.mnemonic]⟩)
  | enc cmd =>
    cases h : romLookup cmd with
    | some code => exact .inl ⟨zext64 code, by simp [instrResponse, h]⟩
    | none =>
      refine .inr (.inr ⟨by simp [instrResponse, h], ?_⟩)
      rw [Instr.wellFormed, ← romLookup_isSome, h]
      rfl
  | hum raw => exact .inl ⟨_, rfl⟩
  | temp raw => exact .inl ⟨_, rfl⟩
  | meas h0 h1 hc t0 t1 tc =>
    simp only [instrResponse]
    split
    · exact .inl ⟨_, rfl⟩
    · exact .inr (.inl ⟨rfl, by simp [Instr.mnemonic]⟩)

theorem instrResponse_proper (i : Instr) : (instrResponse i).Proper := by
  obtain ⟨result, h⟩ | ⟨h, -⟩ | ⟨h, -⟩ := instrResponse_cases i
  · exact h ▸ okResponse_proper result
  · exact h ▸ integrityResponse_proper
  · exact h ▸ illegalResponse_proper

theorem wordResponse_proper (req : Request) : (wordResponse req).Proper := by
  cases h : decode req with
  | instr i => exact wordResponse_of_decode_instr h ▸ instrResponse_proper i
  | illegal why => exact wordResponse_of_decode_illegal h ▸ illegalResponse_proper

/-! ### The invariant -/

theorem inv_of_response_none {s : State} (h : s.response = none) : s.Inv :=
  ⟨fun _ => h, by simp [h]⟩

theorem inv_responded {s : State} {r : Response} (hr : r.Proper) : (s.responded r).Inv :=
  ⟨fun hbusy => absurd rfl hbusy, fun _ h => Option.some.inj h ▸ hr⟩

/-- Settles O8: a step leaves no response, or the proper one that it answers with nothing left in flight. -/
theorem stepKeepsTheTransactionInvariant : Obligations.StepKeepsTheTransactionInvariant := by
  intro s t _ h
  obtain ⟨_, _, _, rfl⟩ | ⟨_, _, rfl⟩ | ⟨_, rfl⟩ | ⟨_, rfl⟩ | ⟨_, _, rfl⟩ | ⟨req, _, hans⟩ := step_next h
  case inr.inr.inr.inr.inr =>
    rw [answer_eq_responded] at hans
    cases hans
    exact inv_responded (wordResponse_proper req)
  all_goals exact inv_of_response_none rfl

/-- Settles O9: no response exists at reset. -/
theorem resetMeetsTheTransactionInvariant : Obligations.ResetMeetsTheTransactionInvariant :=
  inv_of_response_none reset_response

/-! ### What an operation answers -/

/-- Settles O16: the operation's own response is proper, and it is all that `exec` changes. -/
theorem everyOperationOnlyResponds : Obligations.EveryOperationOnlyResponds :=
  fun i s => ⟨instrResponse i, instrResponse_proper i, exec_eq_responded i s⟩

/-- The operations that check nothing answer `OK` (R204). -/
theorem status_of_unchecked {i : Instr} (hwf : i.wellFormed = true) (h : i.mnemonic ∈ ["CRC8", "ENC", "HUM", "TEMP"]) :
    (instrResponse i).status = statusOk := by
  obtain ⟨result, heq⟩ | ⟨-, hchecked⟩ | ⟨-, hill⟩ := instrResponse_cases i
  · rw [heq, okResponse]
  · have hdisjoint : ∀ m ∈ ["CRC8", "ENC", "HUM", "TEMP"], m ∉ ["CHK", "MEAS"] := by decide
    exact absurd hchecked (hdisjoint _ h)
  · exact absurd hwf (Bool.eq_false_iff.mp hill)

/-- Settles O17: by the three kinds of response, of which the illegal one is that of an ill-formed operation. -/
theorem statusByOperation : Obligations.StatusByOperation := by
  intro i s t r hwf hexec hr
  rw [exec_eq_responded] at hexec
  cases hexec
  obtain rfl : instrResponse i = r := Option.some.inj hr
  refine ⟨status_of_unchecked hwf, ?_⟩
  obtain ⟨result, heq⟩ | ⟨heq, hchecked⟩ | ⟨-, hill⟩ := instrResponse_cases i
  · simp [heq, okResponse, statusOk]
  · simp [heq, hchecked, integrityResponse, statusIntegrity]
  · exact absurd hwf (Bool.eq_false_iff.mp hill)

/-! ### The host's duties -/

theorem change_idle (req : Request) {s : State} (h : s.inFlight = none) :
    change req s = .next { s with response := none } := by
  simp [change, h, quietTurn_eq]

theorem change_held {held : Request} {s : State} (h : s.inFlight = some held) :
    change held s = .next { s with response := none } := by
  simp [change, h, quietTurn_eq]

theorem change_other {req held : Request} {s : State} (h : s.inFlight = some held) (hne : req ≠ held) :
    change req s = .fault .requestChangedInFlight := by
  simp [change, h, hne]

/-- Settles O3: the event decides, given what is in flight. -/
theorem requestIsHeldUntilTheResponse : Obligations.RequestIsHeldUntilTheResponse := by
  intro s held req hheld
  refine ⟨fun he => ?_, fun he hne => ?_, fun he => ⟨{ popEvent s with response := none }, ?_, hheld, rfl⟩⟩
  · exact (step_present he).trans (present_busy req held _ hheld)
  · exact (step_change he).trans (change_other hheld hne)
  · exact (step_change he).trans (change_held hheld)

/-- All that a step can do: answer next, or stop for a host that touches the request in flight (R49, R250). -/
theorem step_next_or_fault (s : State) :
    (∃ t, step s = .next t) ∨ ∃ req held, s.inFlight = some held ∧
      (nextEvent s = .present req ∧ step s = .fault .presentedWhileInFlight ∨
        nextEvent s = .change req ∧ step s = .fault .requestChangedInFlight) := by
  cases he : nextEvent s with
  | present req =>
    cases hi : s.inFlight with
    | none => exact .inl ⟨_, (step_present he).trans (present_idle req _ hi)⟩
    | some held => exact .inr ⟨req, held, rfl, .inl ⟨rfl, (step_present he).trans (present_busy req held _ hi)⟩⟩
  | change req =>
    cases hi : s.inFlight with
    | none => exact .inl ⟨_, (step_change he).trans (change_idle req hi)⟩
    | some held =>
      by_cases hreq : req = held
      · exact .inl ⟨_, (step_change he).trans (change_held (hreq ▸ hi))⟩
      · exact .inr ⟨req, held, rfl, .inr ⟨rfl, (step_change he).trans (change_other hi hreq)⟩⟩
  | assertReset => exact .inl ⟨_, step_assertReset he⟩
  | tick => exact .inl ⟨_, step_tick he⟩
  | deliver =>
    cases hi : s.inFlight with
    | none => exact .inl ⟨_, step_deliver_idle he hi⟩
    | some req => exact .inl ⟨_, step_eq_answered ⟨he, hi⟩⟩

/-- Settles O7: the two faults are all that a step can stop with. -/
theorem onlyTheHostFaults : Obligations.OnlyTheHostFaults := by
  intro s
  obtain ⟨t, h⟩ | ⟨req, held, hheld, ⟨he, h⟩ | ⟨he, h⟩⟩ := step_next_or_fault s <;> rw [h]
  · exact ⟨nofun, nofun⟩
  · refine ⟨nofun, ?_⟩
    rintro f ⟨⟩
    exact ⟨by simp [hheld], .inl ⟨req, he, rfl⟩⟩
  · refine ⟨nofun, ?_⟩
    rintro f ⟨⟩
    exact ⟨by simp [hheld], .inr ⟨req, he, rfl⟩⟩

/-! ### The answers in either order -/

/-- A request presented to the idle block is answered in the turn after, whatever response was there before. -/
theorem run_present_deliver (req : Request) (old : Option Response) (rest : List Event) :
    Host.Core.run core 2 (⟨none, old, .present req :: .deliver :: rest⟩ : State) =
      .next ⟨none, some (wordResponse req), rest⟩ :=
  (run_succ_of_step ((step_present rfl).trans (present_idle req _ rfl)) 1).trans
    (run_succ_of_step (step_deliver_inFlight req none rest) 0)

/-- Settles O6: each of the two requests gets its own word's response, first or second. -/
theorem requestsMayBeRepeatedOrReordered : Obligations.RequestsMayBeRepeatedOrReordered := by
  rintro ⟨_, old, _⟩ a b rest rfl
  have hfirst (x y : Request) := run_present_deliver x old (.present y :: .deliver :: rest)
  have hboth (x y : Request) := (run_add_of_run (hfirst x y) 2).trans (run_present_deliver y _ rest)
  exact ⟨_, _, _, _, hfirst a b, hboth a b, hfirst b a, hboth b a, rfl, rfl, nofun, nofun⟩

end Sys2Proof.Proofs
end

section
/-! The pseudocode of the six operations (spec/30_encoding.md R70, spec/60_exceptions.md R200 to R206): its branches are taken by
`op` as the decoder's are, and each gives the response of the operation decoded. -/

namespace Sys2Proof.Proofs

open Sys2Proof.Machine Sys2Proof.Laws

/-- Settles O14: the block's turn is the answer to the word, and a decoded word is answered by `exec`. -/
theorem stepRunsTheDecodedInstruction : Obligations.StepRunsTheDecodedInstruction := by
  intro s req i hs hd
  rw [step_deliver_answers hs, answer, hd]
  rfl

theorem halfwordOf_byteField (req : Request) (lo : Nat) :
    halfwordOf (byteField req (lo + 8)) (byteField req lo) = req.extractLsb' lo 16 :=
  extractLsb'_append_below req lo 8 8

/-- A legal word takes the branch of its operation. -/
theorem HasLayout.specResponse_eq {req : Request} {i : Instr} (hrsv : rsvField req = 0) (h : HasLayout req i) :
    specResponse req = instrResponse i := by
  have hlegal : legal req ≠ false := by simp [h.legal_eq_true hrsv]
  rw [specResponse, if_neg hlegal]
  cases h with
  | crc8 hop _ => rw [hop]; rfl
  | chk hop _ =>
    rw [hop]
    simp only [instrResponse, checksumPasses_iff, halfwordOf_byteField req 8]
    rfl
  | enc hop _ hcmd =>
    have hcode : romLookup (cmdField req) = some (wireCodeOf (cmdField req)) :=
      romLookup_eq_wireCodeOf (of_decide_eq_true hcmd)
    rw [hop, instrResponse, hcode]
    rfl
  | hum hop _ => rw [hop]; rfl
  | temp hop _ => rw [hop]; rfl
  | meas hop =>
    rw [hop]
    simp only [instrResponse, Bool.and_eq_true, checksumPasses_iff, halfwordOf_byteField req 32, halfwordOf_byteField req 8]
    rfl

theorem specResponse_of_not_legal {req : Request} (h : legal req = false) : specResponse req = illegalResponse :=
  if_pos h

/-- The word's response is that of the pseudocode: the decoder and the pseudocode call the same words legal. -/
theorem wordResponse_eq_specResponse (req : Request) : wordResponse req = specResponse req := by
  cases hd : decode req with
  | instr i =>
    obtain ⟨hrsv, hlayout⟩ := decode_eq_instr_iff.mp hd
    rw [wordResponse_of_decode_instr hd, hlayout.specResponse_eq hrsv]
  | illegal why =>
    have hlegal : legal req = false := by
      rw [← Bool.not_eq_true, legal_iff_exists_decode]
      simp [hd]
    rw [wordResponse_of_decode_illegal hd, specResponse_of_not_legal hlegal]

/-- Settles O15: the block answers with the word's response. -/
theorem stepAnswersAsThePseudocode : Obligations.StepAnswersAsThePseudocode :=
  fun _ req hs => wordResponse_eq_specResponse req ▸ step_eq_answered hs

end Sys2Proof.Proofs
end

section
/-! The assembler's lines (spec/30_encoding.md R76): a line is read literal by literal, a literal too wide for its field stops it,
and the operation that a line writes is well formed, so that its word decodes to it. -/

namespace Sys2Proof.Proofs

open Sys2Proof.Machine Sys2Proof.Laws

/-! ### Reading the operands, one after another -/

theorem asmInstr_crc8 (b0 b1 : Nat) :
    asmInstr (.crc8 b0 b1) = (literal 8 b0).bind fun x0 => (literal 8 b1).bind fun x1 => some (.crc8 x0 x1) := by
  simp only [asmInstr]
  cases literal 8 b0
  · rfl
  cases literal 8 b1 <;> rfl

theorem asmInstr_chk (b0 b1 c : Nat) :
    asmInstr (.chk b0 b1 c) = (literal 8 b0).bind fun x0 => (literal 8 b1).bind fun x1 =>
      (literal 8 c).bind fun y => some (.chk x0 x1 y) := by
  simp only [asmInstr]
  cases literal 8 b0
  · rfl
  cases literal 8 b1
  · rfl
  cases literal 8 c <;> rfl

theorem asmInstr_meas (h0 h1 hc t0 t1 tc : Nat) :
    asmInstr (.meas h0 h1 hc t0 t1 tc) = (literal 8 h0).bind fun x0 => (literal 8 h1).bind fun x1 =>
      (literal 8 hc).bind fun xc => (literal 8 t0).bind fun y0 => (literal 8 t1).bind fun y1 =>
      (literal 8 tc).bind fun yc => some (.meas x0 x1 xc y0 y1 yc) := by
  simp only [asmInstr]
  cases literal 8 h0
  · rfl
  cases literal 8 h1
  · rfl
  cases literal 8 hc
  · rfl
  cases literal 8 t0
  · rfl
  cases literal 8 t1
  · rfl
  cases literal 8 tc <;> rfl

theorem commandOfName_eq_none {name : String} (h : name ∉ allCommands.map commandName) : commandOfName name = none := by
  rw [commandOfName, List.find?_eq_none]
  intro c hc heq
  exact h (List.mem_map.mpr ⟨c, hc, of_decide_eq_true heq⟩)

/-! ### The word of a line -/

theorem assemble_of_asmInstr {line : AsmLine} {i : Instr} (h : asmInstr line = some i) :
    assemble line = some (encode i) := by
  cases line with
  | word w => simp [asmInstr] at h
  | _ => simp [assemble, h]

theorem assemble_of_asmInstr_none {line : AsmLine} (hline : ∀ w, line ≠ .word w) (h : asmInstr line = none) :
    assemble line = none := by
  cases line with
  | word w => exact absurd rfl (hline w)
  | _ => simp [assemble, h]

theorem assemble_commandName (c : Command) : assemble (.enc (commandName c)) = some (encRequest c) :=
  assemble_of_asmInstr (i := .enc (commandIndex c)) (by simp [asmInstr, commandOfName_commandName])

/-- The operation that a line writes is well formed: a name stands for one of the six indices. -/
theorem wellFormed_of_asmInstr {line : AsmLine} {i : Instr} (h : asmInstr line = some i) : i.wellFormed = true := by
  cases i with
  | enc cmd =>
    cases line with
    | enc name =>
      obtain ⟨c, -, hc⟩ := Option.map_eq_some_iff.mp h
      cases hc
      cases c <;> rfl
    | crc8 b0 b1 => simp [asmInstr_crc8, Option.bind_eq_some_iff] at h
    | chk b0 b1 c => simp [asmInstr_chk, Option.bind_eq_some_iff] at h
    | meas h0 h1 hc t0 t1 tc => simp [asmInstr_meas, Option.bind_eq_some_iff] at h
    | hum raw => simp [asmInstr] at h
    | temp raw => simp [asmInstr] at h
    | word w => simp [asmInstr] at h
  | _ => rfl

theorem exists_decode_of_assemble {line : AsmLine} {req : Request} (h : assemble line = some req)
    (hline : ∀ w, line ≠ .word w) : ∃ i, asmInstr line = some i ∧ decode req = .instr i := by
  cases hi : asmInstr line with
  | none => rw [assemble_of_asmInstr_none hline hi] at h; cases h
  | some i =>
    rw [assemble_of_asmInstr hi] at h
    cases h
    exact ⟨i, rfl, decode_encode (wellFormed_of_asmInstr hi)⟩

/-! ### What is refused -/

theorem asmInstr_crc8_wide {b0 b1 : Nat} (h : 2 ^ 8 ≤ b0 ∨ 2 ^ 8 ≤ b1) : asmInstr (.crc8 b0 b1) = none := by
  rw [asmInstr_crc8]
  rcases h with h | h <;> simp only [literal_wide h, Option.bind_none, Option.bind_fun_none]

theorem asmInstr_chk_wide {b0 b1 c : Nat} (h : 2 ^ 8 ≤ b0 ∨ 2 ^ 8 ≤ b1 ∨ 2 ^ 8 ≤ c) : asmInstr (.chk b0 b1 c) = none := by
  rw [asmInstr_chk]
  rcases h with h | h | h <;> simp only [literal_wide h, Option.bind_none, Option.bind_fun_none]

theorem asmInstr_meas_wide {h0 h1 hc t0 t1 tc : Nat}
    (h : 2 ^ 8 ≤ h0 ∨ 2 ^ 8 ≤ h1 ∨ 2 ^ 8 ≤ hc ∨ 2 ^ 8 ≤ t0 ∨ 2 ^ 8 ≤ t1 ∨ 2 ^ 8 ≤ tc) :
    asmInstr (.meas h0 h1 hc t0 t1 tc) = none := by
  rw [asmInstr_meas]
  rcases h with h | h | h | h | h | h <;> simp only [literal_wide h, Option.bind_none, Option.bind_fun_none]

theorem asmInstr_hum_wide {raw : Nat} (h : 2 ^ 16 ≤ raw) : asmInstr (.hum raw) = none := by
  rw [asmInstr, literal_wide h, Option.map_none]

theorem asmInstr_temp_wide {raw : Nat} (h : 2 ^ 16 ≤ raw) : asmInstr (.temp raw) = none := by
  rw [asmInstr, literal_wide h, Option.map_none]

theorem asmInstr_enc_unknown {name : String} (h : name ∉ allCommands.map commandName) : asmInstr (.enc name) = none := by
  rw [asmInstr, commandOfName_eq_none h, Option.map_none]

/-- Settles O35: literals that fit give the operation, whose encoding is the word; any other line gives none. -/
theorem assembledLinesDecode : Obligations.AssembledLinesDecode := by
  refine ⟨fun b0 b1 h0 h1 => ?_, fun b0 b1 c h0 h1 hc => ?_, fun raw h => ⟨?_, ?_⟩,
    fun h0 h1 hc t0 t1 tc hh0 hh1 hhc ht0 ht1 htc => ?_,
    ⟨assemble_commandName .wakeup, assemble_commandName .sleep, assemble_commandName .softReset,
      assemble_commandName .readSerialID, assemble_commandName .measureHumidityFirst,
      assemble_commandName .measureTemperatureFirst⟩,
    fun name hname => assemble_of_asmInstr_none nofun (asmInstr_enc_unknown hname),
    fun w h => literal_fits h, fun w h => literal_wide h,
    fun raw h => ⟨assemble_of_asmInstr_none nofun (asmInstr_hum_wide h),
      assemble_of_asmInstr_none nofun (asmInstr_temp_wide h)⟩,
    fun b0 b1 h => assemble_of_asmInstr_none nofun (asmInstr_crc8_wide h),
    fun b0 b1 c h => assemble_of_asmInstr_none nofun (asmInstr_chk_wide h),
    fun h0 h1 hc t0 t1 tc h => assemble_of_asmInstr_none nofun (asmInstr_meas_wide h),
    fun line req => exists_decode_of_assemble⟩
  · refine assemble_of_asmInstr (i := .crc8 (.ofNat 8 b0) (.ofNat 8 b1)) ?_
    simp only [asmInstr_crc8, literal_fits, h0, h1, Option.bind_some]
  · refine assemble_of_asmInstr (i := .chk (.ofNat 8 b0) (.ofNat 8 b1) (.ofNat 8 c)) ?_
    simp only [asmInstr_chk, literal_fits, h0, h1, hc, Option.bind_some]
  · refine assemble_of_asmInstr (i := .hum (.ofNat 16 raw)) ?_
    rw [asmInstr, literal_fits h, Option.map_some]
  · refine assemble_of_asmInstr (i := .temp (.ofNat 16 raw)) ?_
    rw [asmInstr, literal_fits h, Option.map_some]
  · refine assemble_of_asmInstr (i := .meas (.ofNat 8 h0) (.ofNat 8 h1) (.ofNat 8 hc) (.ofNat 8 t0) (.ofNat 8 t1)
      (.ofNat 8 tc)) ?_
    simp only [asmInstr_meas, literal_fits, hh0, hh1, hhc, ht0, ht1, htc, Option.bind_some]

end Sys2Proof.Proofs
end

section
/-! The outcomes of the Sensor Controller's operations (spec/60_exceptions.md R222 to R227): the outcome of pieces put one after
another is the `Except` bind of their outcomes, so each operation's outcome is read off those of its pieces. -/

namespace Sys2Proof.Proofs

open Sys2Proof.Machine Sys2Proof.Laws

/-! ### The outcomes of the pieces -/

/-- The first error is the outcome (R220). -/
theorem outcome_stageThen {α β : Type} (x : Stage α) (k : α → Stage β) :
    (stageThen x k).outcome = x.outcome.bind fun a => (k a).outcome := by
  cases hout : x.outcome with
  | ok a => rw [stageThen_ok x k a hout]; rfl
  | error e => rw [stageThen_error x k e hout]; rfl

/-- What an answer `ok|error` of the transport makes of the operation (R227). -/
def ackOutcome (reply : Ack) : Except HostError Unit :=
  match reply with
  | .ok => .ok ()
  | .error => .error .transportFailure

/-- What the answer to a read makes of the operation (R227). -/
def readOutcome {α : Type} (reply : Option α) : Except HostError α :=
  match reply with
  | some bytes => .ok bytes
  | none => .error .transportFailure

/-- What a triplet makes of the operation: its data, or IntegrityFailure (R104, R227). -/
def checkOutcome (b0 b1 c : Byte) : Except HostError Halfword :=
  if crc8 b0 b1 = c then .ok (halfwordOf b0 b1) else .error .integrityFailure

/-- What a frame makes of the operation: both values, or IntegrityFailure (R161, R162, R227). -/
def frameOutcome (f : Frame) : Except HostError Measurement :=
  if crc8 f.h0 f.h1 = f.hc ∧ crc8 f.t0 f.t1 = f.tc then
    .ok { humidity := humBits (halfwordOf f.h0 f.h1), temperature := tempBits (halfwordOf f.t0 f.t1) }
  else .error .integrityFailure

theorem outcome_busAction (act : HostAction) (reply : Ack) : (busAction act reply).outcome = ackOutcome reply := by
  cases reply <;> rfl

theorem outcome_busRead {α : Type} (byteCount : Nat) (reply : Option α) :
    (busRead byteCount reply).outcome = readOutcome reply := by
  cases reply <;> rfl

/-- Every Command has its wire code, so only the transport can fail. -/
theorem outcome_sendCommand (c : Command) (reply : Ack) : (sendCommand c reply).outcome = ackOutcome reply := by
  rw [sendCommand_eq, stageThen_ok _ _ () rfl, outcome_busAction]

/-- A piece that only makes something of a result fails where the piece before it does. -/
theorem bind_ok_eq_map {α β : Type} (x : Except HostError α) (f : α → β) : (x.bind fun a => .ok (f a)) = x.map f := by
  cases x <;> rfl

theorem outcome_wake (p : HostParams) (reply : Ack) : (wake p reply).outcome = ackOutcome reply := by
  rw [wake, outcome_stageThen, outcome_sendCommand]
  cases reply <;> rfl

/-! ### Decoding a frame -/

theorem setWidth_zext64 {n : Nat} (hn : n ≤ 64) (v : BitVec n) : (zext64 v).setWidth n = v := by
  rw [zext64, BitVec.setWidth_setWidth_of_le _ hn, BitVec.setWidth_eq]

/-- The checked data of a triplet, as the host keeps it. -/
theorem outcome_askBlock_chk (b0 b1 c : Byte) :
    ((askBlock (encode (.chk b0 b1 c))).outcome.map fun result => result.setWidth 16) = checkOutcome b0 b1 c := by
  rw [askBlock_chk, checkOutcome]
  split
  · exact congrArg Except.ok (setWidth_zext64 (by decide) _)
  · rfl

theorem outcome_decodeWhole (f : Frame) :
    (decodeWhole (encode (.meas f.h0 f.h1 f.hc f.t0 f.t1 f.tc))).outcome = frameOutcome f := by
  rw [decodeWhole, outcome_stageThen, askBlock_meas, frameOutcome]
  split
  · exact congrArg Except.ok
      (congrArg₂ Measurement.mk (extractLsb'_append_high _ _) (extractLsb'_append_low _ _))
  · rfl

/-- The four single operations decide by the same checks and convert the same raw codes (R163). -/
theorem outcome_decodePieces (f : Frame) : (decodePieces f).outcome = frameOutcome f := by
  simp only [decodePieces, outcome_stageThen, askBlock_chk, askBlock_hum, askBlock_temp, frameOutcome]
  by_cases hhum : crc8 f.h0 f.h1 = f.hc
  · by_cases htemp : crc8 f.t0 f.t1 = f.tc
    · simp only [hhum, htemp, if_true, and_self, stageDo, Except.bind, setWidth_zext64 (show 16 ≤ 64 by decide),
        setWidth_zext64 (show 32 ≤ 64 by decide)]
    · simp only [hhum, htemp, if_true, if_false, and_false, stageDo, stageFail, Except.bind]
  · simp only [hhum, if_false, false_and, stageFail, Except.bind]

/-- Both ways of decoding a frame come to the same outcome (R223 step 4). -/
theorem outcome_decodeFrame (p : HostParams) (f : Frame) :
    (decodeFrame p .measureHumidityFirst f).outcome = frameOutcome f := by
  simp only [decodeFrame, measRequest]
  split
  · exact outcome_decodeWhole f
  · exact outcome_decodePieces f

/-! ### ReadMeasurement -/

theorem outcome_measureSteps (p : HostParams) (r : MeasurementReplies) : (measureSteps p r).outcome =
    (ackOutcome r.wakeup).bind fun _ => (ackOutcome r.measure).bind fun _ => (readOutcome r.frame).bind frameOutcome := by
  simp only [measureSteps, outcome_stageThen, outcome_wake, outcome_sendCommand, outcome_busRead, outcome_decodeFrame]
  rfl

/-- Settles O37: the outcome is that of steps 1 to 4, the first failure among them. -/
theorem readMeasurementOutcome : Obligations.ReadMeasurementOutcome := by
  intro p r
  rw [outcome_readMeasurement, outcome_measureSteps]
  refine ⟨?_, fun f hwakeup hmeasure hframe => ?_⟩
  · cases hwakeup : r.wakeup with
    | error => exact fun _ => rfl
    | ok =>
      cases hmeasure : r.measure with
      | error => exact fun _ => rfl
      | ok =>
        rintro (h | h | hframe)
        · cases h
        · cases h
        · rw [hframe]
          rfl
  · rw [hwakeup, hmeasure, hframe]
    exact ⟨fun hpass => if_pos hpass, fun hfail => if_neg hfail⟩

/-! ### Init -/

theorem outcome_readSerial (r : InitReplies) : (readSerial r).outcome =
    (ackOutcome r.readID).bind fun _ => (readOutcome r.bytes).bind fun b => checkOutcome b.1 b.2.1 b.2.2 := by
  simp only [readSerial, outcome_stageThen, outcome_sendCommand, outcome_busRead, ← outcome_askBlock_chk]
  rfl

theorem outcome_initSteps (p : HostParams) (wantID : Bool) (r : InitReplies) : (initSteps p wantID r).outcome =
    (ackOutcome r.wakeup).bind fun _ => (ackOutcome r.probe).bind fun _ =>
      if wantID then (readSerial r).outcome.map some else .ok none := by
  simp only [initSteps, outcome_stageThen, outcome_wake, outcome_busAction]
  cases wantID with
  | true => simp only [if_true, outcome_stageThen, ← bind_ok_eq_map]; rfl
  | false => rfl

theorem outcome_hostInit (p : HostParams) (wantID : Bool) (r : InitReplies) :
    (hostInit p wantID r).outcome = (initSteps p wantID r).outcome := by
  simp only [hostInit]
  split
  · next h => exact h.symm
  · next h => exact h.symm

theorem outcome_hostInit_of_not_answered (p : HostParams) (wantID : Bool) {r : InitReplies}
    (h : r.wakeup = .error ∨ r.probe = .error) : (hostInit p wantID r).outcome = .error .transportFailure := by
  rw [outcome_hostInit, outcome_initSteps]
  cases hwakeup : r.wakeup with
  | error => rfl
  | ok =>
    obtain h | hprobe := h
    · exact absurd (hwakeup.symm.trans h) nofun
    · rw [hprobe]
      rfl

/-- With Wakeup and the probe answered, the outcome is that of the read of the ID, where one is wanted (R222). -/
theorem outcome_hostInit_of_answered (p : HostParams) (wantID : Bool) {r : InitReplies} (hwakeup : r.wakeup = .ok)
    (hprobe : r.probe = .ok) :
    (hostInit p wantID r).outcome = if wantID then (readSerial r).outcome.map some else .ok none := by
  rw [outcome_hostInit, outcome_initSteps, hwakeup, hprobe]
  rfl

theorem outcome_readSerial_of_not_read {r : InitReplies} (h : r.readID = .error ∨ r.bytes = none) :
    (readSerial r).outcome = .error .transportFailure := by
  rw [outcome_readSerial]
  cases hread : r.readID with
  | error => rfl
  | ok =>
    obtain h | hbytes := h
    · exact absurd (hread.symm.trans h) nofun
    · rw [hbytes]
      rfl

theorem outcome_readSerial_of_read {r : InitReplies} {b0 b1 c : Byte} (hread : r.readID = .ok)
    (hbytes : r.bytes = some (b0, b1, c)) : (readSerial r).outcome = checkOutcome b0 b1 c := by
  rw [outcome_readSerial, hread, hbytes]
  rfl

/-! ### What Init transmits -/

theorem TransmitsOnly.not_mem_bytes {cs : List Command} {log : List HostAction} (h : TransmitsOnly cs log)
    {bytes : List Byte} (hbytes : ∀ c ∈ cs, serialize (wireCodeOf (commandIndex c)) ≠ bytes) (address : Byte) (ms : Nat) :
    .transmit address bytes ms ∉ log := fun hmem => by
  obtain ⟨c, hc, heq⟩ := h _ _ _ hmem
  obtain ⟨-, hcode, -⟩ := HostAction.transmit.inj heq
  exact hbytes c hc hcode.symm

/-- Only a piece that runs can transmit. -/
theorem TransmitsOnly.stageThen_of_ok {α β : Type} {cs : List Command} {x : Stage α} {k : α → Stage β}
    (hx : TransmitsOnly cs x.log) (hk : ∀ a, x.outcome = .ok a → TransmitsOnly cs (k a).log) :
    TransmitsOnly cs (Machine.stageThen x k).log := by
  cases hout : x.outcome with
  | ok a => rw [stageThen_ok x k a hout]; exact hx.append (hk a hout)
  | error e => rw [stageThen_error x k e hout]; exact hx

theorem transmitsOnly_probe (cs : List Command) (address : BitVec 7) (retries ms : Nat) (reply : Ack) :
    TransmitsOnly cs (busAction (.probe address retries ms) reply).log := by
  simp [log_busAction, TransmitsOnly]

theorem transmitsOnly_readSerial (r : InitReplies) : TransmitsOnly [.readSerialID] (readSerial r).log :=
  (transmitsOnly_sendCommand (by decide) r.readID).stageThen fun _ =>
    (transmitsOnly_busRead _ 3 r.bytes).stageThen fun _ =>
      (transmitsOnly_askBlock _ _).stageThen fun _ => transmitsOnly_nil _

theorem TransmitsOnly.mono {cs ds : List Command} {log : List HostAction} (h : TransmitsOnly cs log) (hsub : cs ⊆ ds) :
    TransmitsOnly ds log := fun _ _ _ hmem => by
  obtain ⟨c, hc, heq⟩ := h _ _ _ hmem
  exact ⟨c, hsub hc, heq⟩

theorem transmitsOnly_initSteps (p : HostParams) (wantID : Bool) (r : InitReplies) :
    TransmitsOnly [.wakeup, .readSerialID] (initSteps p wantID r).log := by
  refine (transmitsOnly_wake (by decide) p r.wakeup).stageThen fun _ =>
    (transmitsOnly_probe _ _ _ _ r.probe).stageThen fun _ => ?_
  split
  · exact ((transmitsOnly_readSerial r).mono (by decide)).stageThen fun _ => transmitsOnly_nil _
  · exact transmitsOnly_nil _

/-- Where Wakeup or the probe fails, Init transmits Wakeup alone (R222). -/
theorem transmitsOnly_initSteps_of_not_answered (p : HostParams) (wantID : Bool) {r : InitReplies}
    (h : r.wakeup = .error ∨ r.probe = .error) : TransmitsOnly [.wakeup] (initSteps p wantID r).log := by
  refine (transmitsOnly_wake (by decide) p r.wakeup).stageThen_of_ok fun _ hwake =>
    (transmitsOnly_probe _ _ _ _ r.probe).stageThen_of_ok fun _ hprobe => ?_
  rw [outcome_wake] at hwake
  rw [outcome_busAction] at hprobe
  obtain h | h := h
  · rw [h] at hwake; cases hwake
  · rw [h] at hprobe; cases hprobe

theorem transmitsOnly_hostInit {cs : List Command} {p : HostParams} {wantID : Bool} {r : InitReplies}
    (h : TransmitsOnly cs (initSteps p wantID r).log) : TransmitsOnly cs (hostInit p wantID r).log := by
  have hstart := (transmitsOnly_assumed cs (some p.powerAtStart)).append h
  simp only [hostInit]
  split
  · exact hstart
  · exact hstart.append (transmitsOnly_assumed cs none)

/-- Settles O38: the outcome step by step, and the Commands that Init can transmit. -/
theorem initOutcome : Obligations.InitOutcome := by
  intro p wantID r
  refine ⟨fun h => ⟨outcome_hostInit_of_not_answered p wantID h, ?_⟩, fun hwakeup hprobe => ?_, ?_⟩
  · exact (transmitsOnly_hostInit (transmitsOnly_initSteps_of_not_answered p wantID h)).not_mem_bytes (by decide) _
  · rw [outcome_hostInit_of_answered p wantID hwakeup hprobe]
    refine ⟨?_, ?_, fun b0 b1 c => ?_⟩
    · rintro rfl
      rfl
    · rintro rfl hfail
      rw [outcome_readSerial_of_not_read hfail]
      rfl
    · rintro rfl hread hbytes
      rw [outcome_readSerial_of_read hread hbytes, checkOutcome]
      exact ⟨fun hpass => by rw [if_pos hpass.symm]; rfl, fun hfail => by rw [if_neg hfail.symm]; rfl⟩
  · exact (transmitsOnly_hostInit (transmitsOnly_initSteps p wantID r)).not_mem_bytes (by decide) _

/-! ### No host fault -/

theorem bind_ne_hostFault {α β : Type} {x : Except HostError α} {k : α → Except HostError β}
    (hx : x ≠ .error .hostFault) (hk : ∀ a, k a ≠ .error .hostFault) : x.bind k ≠ .error .hostFault := by
  cases x with
  | ok a => exact hk a
  | error e =>
    rintro h
    cases h
    exact hx rfl

theorem ackOutcome_ne_hostFault (reply : Ack) : ackOutcome reply ≠ .error .hostFault := by
  cases reply <;> nofun

theorem readOutcome_ne_hostFault {α : Type} (reply : Option α) : readOutcome reply ≠ .error .hostFault := by
  cases reply <;> nofun

theorem checkOutcome_ne_hostFault (b0 b1 c : Byte) : checkOutcome b0 b1 c ≠ .error .hostFault := by
  unfold checkOutcome
  split <;> nofun

theorem frameOutcome_ne_hostFault (f : Frame) : frameOutcome f ≠ .error .hostFault := by
  unfold frameOutcome
  split <;> nofun

theorem outcome_readMeasurement_ne_hostFault (p : HostParams) (r : MeasurementReplies) :
    (readMeasurement p r).outcome ≠ .error .hostFault := by
  rw [outcome_readMeasurement, outcome_measureSteps]
  exact bind_ne_hostFault (ackOutcome_ne_hostFault _) fun _ => bind_ne_hostFault (ackOutcome_ne_hostFault _) fun _ =>
    bind_ne_hostFault (readOutcome_ne_hostFault _) frameOutcome_ne_hostFault

theorem outcome_readSerial_ne_hostFault (r : InitReplies) : (readSerial r).outcome ≠ .error .hostFault := by
  rw [outcome_readSerial]
  exact bind_ne_hostFault (ackOutcome_ne_hostFault _) fun _ => bind_ne_hostFault (readOutcome_ne_hostFault _) fun _ =>
    checkOutcome_ne_hostFault _ _ _

theorem outcome_hostInit_ne_hostFault (p : HostParams) (wantID : Bool) (r : InitReplies) :
    (hostInit p wantID r).outcome ≠ .error .hostFault := by
  rw [outcome_hostInit, outcome_initSteps]
  refine bind_ne_hostFault (ackOutcome_ne_hostFault _) fun _ => bind_ne_hostFault (ackOutcome_ne_hostFault _) fun _ => ?_
  split
  · rw [← bind_ok_eq_map]
    exact bind_ne_hostFault (outcome_readSerial_ne_hostFault r) nofun
  · nofun

/-- SoftReset fails only where its one transmission does (R224). -/
theorem outcome_softReset (p : HostParams) (start : SensorPower) (reply : Ack) :
    (softReset p start reply).outcome = ackOutcome reply := by
  cases reply <;> rfl

/-- EnterSleep fails only where its one transmission does (R225). -/
theorem outcome_enterSleep (start : SensorPower) (reply : Ack) : (enterSleep start reply).outcome = ackOutcome reply := by
  cases reply <;> rfl

/-- Settles O40: no piece of any operation has that outcome. -/
theorem theControllerNeverHostFaults : Obligations.TheControllerNeverHostFaults := fun p =>
  ⟨outcome_readMeasurement_ne_hostFault p, outcome_hostInit_ne_hostFault p,
    fun start ack => outcome_softReset p start ack ▸ ackOutcome_ne_hostFault ack,
    fun start ack => outcome_enterSleep start ack ▸ ackOutcome_ne_hostFault ack⟩

end Sys2Proof.Proofs
end

section
/-! The power states that the host assumes (spec/60_exceptions.md R221): few pieces of an operation assume one, and the states of
pieces put one after another stand in order. -/

namespace Sys2Proof.Proofs

open Sys2Proof.Machine Sys2Proof.Laws

/-! ### The pieces -/

theorem assumedStates_sendCommand (c : Command) (reply : Ack) : assumedStates (sendCommand c reply).log = [] := by
  rw [log_sendCommand]
  rfl

theorem assumedStates_askBlock (req : Request) : assumedStates (askBlock req).log = [] := by
  unfold askBlock
  split
  · rfl
  · split_ifs <;> rfl

theorem assumedStates_busRead {α : Type} (byteCount : Nat) (reply : Option α) :
    assumedStates (busRead byteCount reply).log = [] := by
  cases reply <;> rfl

/-- A piece after one that succeeds adds its own states. -/
theorem assumedStates_stageThen_ok {α β : Type} {x : Stage α} {k : α → Stage β} {a : α} (h : x.outcome = .ok a) :
    assumedStates (stageThen x k).log = assumedStates x.log ++ assumedStates (k a).log := by
  rw [stageThen_ok x k a h, assumedStates_append]

/-- Pieces that assume no state assume none together. -/
theorem assumedStates_stageThen_nil {α β : Type} {x : Stage α} {k : α → Stage β} (hx : assumedStates x.log = [])
    (hk : ∀ a, assumedStates (k a).log = []) : assumedStates (stageThen x k).log = [] := by
  cases h : x.outcome with
  | ok a => rw [assumedStates_stageThen_ok h, hx, hk]; rfl
  | error e => rw [stageThen_error x k e h]; exact hx

theorem assumedStates_wake_ok (p : HostParams) : assumedStates (wake p .ok).log = [some .awake] := by
  rw [wake, assumedStates_stageThen_ok (outcome_sendCommand_ok .wakeup), assumedStates_sendCommand]
  rfl

theorem assumedStates_readSerial (r : InitReplies) : assumedStates (readSerial r).log = [] :=
  assumedStates_stageThen_nil (assumedStates_sendCommand _ _) fun _ =>
    assumedStates_stageThen_nil (assumedStates_busRead _ _) fun _ =>
      assumedStates_stageThen_nil (assumedStates_askBlock _) fun _ => rfl

theorem assumedStates_decodeFrame (p : HostParams) (c : Command) (f : Frame) :
    assumedStates (decodeFrame p c f).log = [] := by
  unfold decodeFrame
  split
  · rfl
  · split
    · exact assumedStates_stageThen_nil (assumedStates_askBlock _) fun _ => rfl
    · exact assumedStates_stageThen_nil (assumedStates_askBlock _) fun _ =>
        assumedStates_stageThen_nil (assumedStates_askBlock _) fun _ =>
          assumedStates_stageThen_nil (assumedStates_askBlock _) fun _ =>
            assumedStates_stageThen_nil (assumedStates_askBlock _) fun _ => rfl

/-- Only an answered transmission leads to success (R220). -/
theorem ack_ok_of_bind {α : Type} {reply : Ack} {k : Unit → Except HostError α} {a : α}
    (h : (ackOutcome reply).bind k = .ok a) : reply = .ok ∧ k () = .ok a := by
  cases reply with
  | ok => exact ⟨rfl, h⟩
  | error => cases h

theorem assumedStates_initSteps {p : HostParams} {wantID : Bool} {r : InitReplies} (hwakeup : r.wakeup = .ok) :
    assumedStates (initSteps p wantID r).log = [some .awake] := by
  rw [initSteps, hwakeup, assumedStates_stageThen_ok (by rw [outcome_wake]; rfl), assumedStates_wake_ok,
    assumedStates_stageThen_nil (by rw [log_busAction]; rfl)]
  · rfl
  · intro _
    split
    · exact assumedStates_stageThen_nil (assumedStates_readSerial r) fun _ => rfl
    · rfl

theorem assumedStates_measureSteps {p : HostParams} {r : MeasurementReplies} (hwakeup : r.wakeup = .ok)
    (hmeasure : r.measure = .ok) : assumedStates (measureSteps p r).log = [some .awake, some .measuring] := by
  have hframe : assumedStates (stageThen (busRead 6 r.frame) fun f => decodeFrame p .measureHumidityFirst f).log = [] :=
    assumedStates_stageThen_nil (assumedStates_busRead 6 r.frame) (assumedStates_decodeFrame p .measureHumidityFirst)
  rw [measureSteps, hwakeup, hmeasure, assumedStates_stageThen_ok (by rw [outcome_wake]; rfl), assumedStates_wake_ok,
    assumedStates_stageThen_ok (outcome_sendCommand_ok .measureHumidityFirst), assumedStates_sendCommand,
    assumedStates_stageThen_ok (a := ()) rfl, hframe]
  rfl

/-! ### The operations -/

theorem assumedStates_hostInit {p : HostParams} {wantID : Bool} {r : InitReplies} {id : Option Halfword}
    (h : (hostInit p wantID r).outcome = .ok id) :
    assumedStates (hostInit p wantID r).log = [some p.powerAtStart, some .awake] := by
  rw [outcome_hostInit] at h
  have hlog : (hostInit p wantID r).log = .assumed (some p.powerAtStart) :: (initSteps p wantID r).log := by
    simp only [hostInit, h]
    rfl
  rw [outcome_initSteps] at h
  rw [hlog, assumedStates_assumed, assumedStates_initSteps (ack_ok_of_bind h).1]

/-- Whatever steps 1 to 4 do, the operation begins with its start state and ends in Sleeping (R221, R229). -/
theorem assumedStates_readMeasurement (p : HostParams) (r : MeasurementReplies) :
    assumedStates (readMeasurement p r).log =
      some p.powerAtStart :: (assumedStates (measureSteps p r).log ++ [some .sleeping]) := by
  simp [readMeasurement, assumedStates_sendCommand]

theorem assumedStates_readMeasurement_ok {p : HostParams} {r : MeasurementReplies} {m : Measurement}
    (h : (readMeasurement p r).outcome = .ok m) : assumedStates (readMeasurement p r).log =
      [some p.powerAtStart, some .awake, some .measuring, some .sleeping] := by
  rw [outcome_readMeasurement, outcome_measureSteps] at h
  obtain ⟨hwakeup, h⟩ := ack_ok_of_bind h
  obtain ⟨hmeasure, -⟩ := ack_ok_of_bind h
  rw [assumedStates_readMeasurement, assumedStates_measureSteps hwakeup hmeasure]
  rfl

theorem assumedStates_softReset_ok (p : HostParams) (start : SensorPower) :
    assumedStates (softReset p start .ok).log = [some start, some p.powerAfterReset] := by
  rw [log_softReset_ok, assumedStates_assumed, assumedStates_stageThen_ok (outcome_sendCommand_ok .softReset),
    assumedStates_sendCommand]
  rfl

/-- Settles O41: the start state, then the states of the pieces that ran. -/
theorem assumedPowerStates : Obligations.AssumedPowerStates := by
  intro p
  refine ⟨fun wantID r id => assumedStates_hostInit, fun r m => assumedStates_readMeasurement_ok, fun r => ?_,
    fun start _ => ⟨outcome_softReset p start .ok, assumedStates_softReset_ok p start⟩, outcome_enterSleep .awake .ok, ?_⟩
  · rw [assumedStates_readMeasurement]
    exact ⟨rfl, by rw [← List.cons_append, List.getLast?_concat]⟩
  · decide

end Sys2Proof.Proofs
end

section
/-! The values of a binary format in units of its smallest (spec/00_scope.md R8): a magnitude code, the exponent and fraction
fields as one number, stands for a natural number of units, and the codes of nearest values. -/

namespace Sys2Proof.Proofs

open Sys2Proof.Machine Sys2Proof.Laws

/-! ### Codes and their values -/

/-- The value of the code `M` with `P` fraction bits, in units of the smallest value above zero. -/
def codeUnits (P M : ℕ) : ℕ :=
  if M / 2 ^ P = 0 then M % 2 ^ P else (2 ^ P + M % 2 ^ P) * 2 ^ (M / 2 ^ P - 1)

/-- `s` is a significand for the scale `k`: below the normal range there is only the scale 0. -/
def IsSignificand (P k s : ℕ) : Prop := s ≤ 2 ^ (P + 1) ∧ (k = 0 ∨ 2 ^ P ≤ s)

/-- The code of `s * 2 ^ k`; a significand of `2 ^ (P + 1)` has carried into the exponent field. -/
theorem codeUnits_eq {P k s : ℕ} (h : IsSignificand P k s) : codeUnits P (k * 2 ^ P + s) = s * 2 ^ k := by
  obtain ⟨hle, hnormal⟩ := h
  have hpos : 0 < 2 ^ P := Nat.two_pow_pos P
  rw [Nat.pow_succ] at hle
  have hdiv : (k * 2 ^ P + s) / 2 ^ P = k + s / 2 ^ P := by rw [Nat.add_comm, Nat.add_mul_div_right _ _ hpos, Nat.add_comm]
  have hmod : (k * 2 ^ P + s) % 2 ^ P = s % 2 ^ P := by rw [Nat.add_comm, Nat.add_mul_mod_self_right]
  rw [codeUnits, hdiv, hmod]
  rcases Nat.lt_or_ge s (2 ^ P) with hs | hs
  · obtain rfl : k = 0 := hnormal.resolve_right (Nat.not_le.mpr hs)
    simp [Nat.div_eq_of_lt hs, Nat.mod_eq_of_lt hs]
  · obtain ⟨r, rfl⟩ := Nat.exists_eq_add_of_le hs
    rcases Nat.lt_or_ge r (2 ^ P) with hr | hr
    · simp [Nat.add_div_left _ hpos, Nat.div_eq_of_lt hr, Nat.mod_eq_of_lt hr]
    · obtain rfl : r = 2 ^ P := by omega
      have htwo : (2 ^ P + 2 ^ P) / 2 ^ P = 2 := by rw [← Nat.two_mul, Nat.mul_div_cancel _ hpos]
      simp [htwo, Nat.pow_succ]
      ring

/-- Every code has its scale, one below its exponent field, and its significand. -/
theorem exists_eq_scale_add_significand (P M : ℕ) :
    ∃ s, M = (M / 2 ^ P - 1) * 2 ^ P + s ∧ s < 2 ^ (P + 1) ∧ (M / 2 ^ P - 1 = 0 ∨ 2 ^ P ≤ s) := by
  have hM : 2 ^ P * (M / 2 ^ P) + M % 2 ^ P = M := Nat.div_add_mod M (2 ^ P)
  have hr : M % 2 ^ P < 2 ^ P := Nat.mod_lt M (Nat.two_pow_pos P)
  rw [Nat.pow_succ]
  cases hE : M / 2 ^ P with
  | zero =>
    rw [hE] at hM
    exact ⟨M % 2 ^ P, by omega, by omega, .inl rfl⟩
  | succ k =>
    rw [hE, Nat.mul_succ] at hM
    refine ⟨2 ^ P + M % 2 ^ P, ?_, by omega, .inr (Nat.le_add_right _ _)⟩
    rw [Nat.add_sub_cancel, Nat.mul_comm]
    omega

theorem codeUnits_zero (P : ℕ) : codeUnits P 0 = 0 := by
  simp [codeUnits]

/-- From one code to the next the value grows by a unit in the last place of its binade. -/
theorem codeUnits_succ (P M : ℕ) : codeUnits P (M + 1) = codeUnits P M + 2 ^ (M / 2 ^ P - 1) := by
  obtain ⟨s, hM, hlt, hnormal⟩ := exists_eq_scale_add_significand P M
  generalize M / 2 ^ P - 1 = k at *
  subst hM
  rw [Nat.add_assoc, codeUnits_eq ⟨hlt, hnormal.imp_right (Nat.le_succ_of_le ·)⟩, codeUnits_eq ⟨hlt.le, hnormal⟩,
    Nat.succ_mul]

theorem codeUnits_strictMono (P : ℕ) : StrictMono (codeUnits P) :=
  strictMono_nat_of_lt_succ fun M => by
    rw [codeUnits_succ]
    exact Nat.lt_add_of_pos_right (Nat.two_pow_pos _)

/-- The values from the binade of scale `k` on are multiples of its unit in the last place. -/
theorem two_pow_dvd_codeUnits {P k M : ℕ} (h : 2 ^ P * 2 ^ k ≤ codeUnits P M) : 2 ^ k ∣ codeUnits P M := by
  obtain ⟨s, hM, hlt, hnormal⟩ := exists_eq_scale_add_significand P M
  generalize M / 2 ^ P - 1 = j at *
  subst hM
  rw [codeUnits_eq ⟨hlt.le, hnormal⟩] at h ⊢
  have hpow : 2 ^ (P + k) < 2 ^ (P + 1 + j) := by
    rw [Nat.pow_add, Nat.pow_add 2 (P + 1) j]
    exact h.trans_lt (Nat.mul_lt_mul_of_pos_right hlt (Nat.two_pow_pos j))
  have hle : P + k < P + 1 + j := (Nat.pow_lt_pow_iff_right (by decide)).mp hpow
  exact Dvd.dvd.mul_left (Nat.pow_dvd_pow 2 (by omega)) s

/-- Every number of at most `P + 1` bits, in any scale, has a code. -/
theorem exists_codeUnits_eq (P k s : ℕ) (h : s ≤ 2 ^ (P + 1)) : ∃ M, codeUnits P M = s * 2 ^ k := by
  induction k generalizing s with
  | zero => exact ⟨_, codeUnits_eq ⟨h, .inl rfl⟩⟩
  | succ k ih =>
    rcases Nat.lt_or_ge s (2 ^ P) with hs | hs
    · obtain ⟨M, hM⟩ := ih (s * 2) (by rw [Nat.pow_succ]; omega)
      exact ⟨M, by rw [hM, Nat.pow_succ]; ring⟩
    · exact ⟨_, codeUnits_eq ⟨h, .inr hs⟩⟩

/-! ### The nearest code -/

/-- `M` is the code of the value nearest to `X` units, and even where another value is as near. -/
def IsNearestCode (P : ℕ) (X : ℚ) (M : ℕ) : Prop :=
  ∀ M', |X - codeUnits P M| ≤ |X - codeUnits P M'| ∧
    (M' ≠ M → |X - codeUnits P M| = |X - codeUnits P M'| → M % 2 = 0)

/-- A number that is a value has that value's code as its nearest. -/
theorem isNearestCode_codeUnits (P M : ℕ) : IsNearestCode P (codeUnits P M) M := by
  intro M'
  rw [sub_self, abs_zero]
  refine ⟨abs_nonneg _, fun hne heq => absurd ?_ hne⟩
  have hval : (codeUnits P M : ℚ) = codeUnits P M' := sub_eq_zero.mp (abs_eq_zero.mp heq.symm)
  exact ((codeUnits_strictMono P).injective (Nat.cast_injective hval)).symm

theorem IsNearestCode.eq_codeUnits {P M M' : ℕ} {X : ℚ} (h : IsNearestCode P X M) (hX : X = codeUnits P M') :
    X = codeUnits P M := by
  have hle := (h M').1
  rw [← hX, sub_self, abs_zero] at hle
  exact sub_eq_zero.mp (abs_nonpos_iff.mp hle)

/-- What is no farther from the lower of two points is not above their middle. -/
theorem two_mul_le_add_of_abs_sub_le {X a b : ℚ} (hab : a < b) (h : |X - a| ≤ |X - b|) : 2 * X ≤ a + b := by
  by_contra hlt
  have hsq := sq_le_sq.mpr h
  have hpos := mul_pos (sub_pos.mpr hab) (sub_pos.mpr (not_le.mp hlt))
  nlinarith only [hsq, hpos]

/-- What is no farther from the upper of two points is not below their middle. -/
theorem add_le_two_mul_of_abs_sub_le {X a b : ℚ} (hab : a < b) (h : |X - b| ≤ |X - a|) : a + b ≤ 2 * X := by
  have hneg := two_mul_le_add_of_abs_sub_le (X := -X) (neg_lt_neg hab)
    (by rwa [neg_sub_neg, neg_sub_neg, abs_sub_comm b, abs_sub_comm a])
  linarith

theorem codeUnits_cast_lt {P M M' : ℕ} (h : M < M') : (codeUnits P M : ℚ) < codeUnits P M' := by
  exact_mod_cast codeUnits_strictMono P h

theorem IsNearestCode.le_midpoint {P M M' : ℕ} {X : ℚ} (h : IsNearestCode P X M) (hlt : M < M') :
    2 * X ≤ codeUnits P M + codeUnits P M' :=
  two_mul_le_add_of_abs_sub_le (codeUnits_cast_lt hlt) (h M').1

theorem IsNearestCode.midpoint_le {P M M' : ℕ} {X : ℚ} (h : IsNearestCode P X M) (hlt : M' < M) :
    codeUnits P M' + codeUnits P M ≤ 2 * X :=
  add_le_two_mul_of_abs_sub_le (codeUnits_cast_lt hlt) (h M').1

/-- Rounding keeps an upper bound that is a value. -/
theorem IsNearestCode.le_of_le {P M M' : ℕ} {X : ℚ} (h : IsNearestCode P X M) (hX : X ≤ codeUnits P M') : M ≤ M' := by
  by_contra hlt
  have hcodes := codeUnits_cast_lt (P := P) (not_le.mp hlt)
  linarith [h.midpoint_le (not_le.mp hlt)]

/-- Rounding keeps a lower bound that is a value. -/
theorem IsNearestCode.ge_of_ge {P M M' : ℕ} {X : ℚ} (h : IsNearestCode P X M) (hX : codeUnits P M' ≤ X) : M' ≤ M := by
  by_contra hlt
  have hcodes := codeUnits_cast_lt (P := P) (not_le.mp hlt)
  linarith [h.le_midpoint (not_le.mp hlt)]

/-- Between two codes as near as each other there is no third, so one of them is odd. -/
theorem IsNearestCode.le {P M M' : ℕ} {X : ℚ} (h : IsNearestCode P X M) (h' : IsNearestCode P X M') : M' ≤ M := by
  by_contra hlt
  rw [not_le] at hlt
  have heq : |X - codeUnits P M| = |X - codeUnits P M'| := le_antisymm (h M').1 (h' M).1
  have heven := (h M').2 hlt.ne' heq
  have heven' := (h' M).2 hlt.ne heq.symm
  have hbetween : M + 1 < M' := by omega
  linarith [h'.midpoint_le hlt, h.le_midpoint (Nat.lt_succ_self M), codeUnits_cast_lt (P := P) hbetween]

/-- The nearest code is one code. -/
theorem IsNearestCode.unique {P M M' : ℕ} {X : ℚ} (h : IsNearestCode P X M) (h' : IsNearestCode P X M') : M = M' :=
  le_antisymm (h'.le h) (h.le h')

/-- The error is at most half of the unit in the last place of the code's binade. -/
theorem IsNearestCode.abs_sub_le_half_ulp {P M : ℕ} {X : ℚ} (h : IsNearestCode P X M) (h0 : 0 ≤ X) :
    |X - codeUnits P M| ≤ 2 ^ (M / 2 ^ P - 1) / 2 := by
  have habove := h.le_midpoint (Nat.lt_succ_self M)
  rw [codeUnits_succ] at habove
  push_cast at habove
  rw [abs_le]
  refine ⟨?_, by linarith⟩
  cases M with
  | zero =>
    have hunit : (0 : ℚ) < 2 ^ (0 / 2 ^ P - 1) := by positivity
    rw [codeUnits_zero, Nat.cast_zero]
    linarith
  | succ j =>
    have hbelow := h.midpoint_le (Nat.lt_succ_self j)
    have hstep : (2 : ℚ) ^ (j / 2 ^ P - 1) ≤ 2 ^ ((j + 1) / 2 ^ P - 1) :=
      pow_le_pow_right₀ (by norm_num) (Nat.sub_le_sub_right (Nat.div_le_div_right (Nat.le_succ j)) 1)
    rw [codeUnits_succ] at hbelow ⊢
    push_cast at hbelow ⊢
    linarith

/-- The error is at most half a unit of any scale that reaches `X`. -/
theorem IsNearestCode.abs_sub_le_of_le {P M k : ℕ} {X : ℚ} (h : IsNearestCode P X M) (h0 : 0 ≤ X)
    (hX : X ≤ 2 ^ (P + 1) * 2 ^ k) : |X - codeUnits P M| ≤ 2 ^ k / 2 := by
  have hpow : (0 : ℚ) < 2 ^ k := by positivity
  have hY : X / 2 ^ k ≤ 2 ^ (P + 1) := (div_le_iff₀ hpow).mpr hX
  have hX' : X / 2 ^ k * 2 ^ k = X := div_mul_cancel₀ X hpow.ne'
  generalize X / 2 ^ k = Y at hY hX'
  subst hX'
  have hY0 : 0 ≤ Y := nonneg_of_mul_nonneg_left h0 hpow
  have hlow : (⌊Y + 1 / 2⌋₊ : ℚ) ≤ Y + 1 / 2 := Nat.floor_le (by linarith)
  have hhigh : Y + 1 / 2 < (⌊Y + 1 / 2⌋₊ : ℚ) + 1 := Nat.lt_floor_add_one _
  have hs : ⌊Y + 1 / 2⌋₊ ≤ 2 ^ (P + 1) := by
    rw [← Nat.lt_add_one_iff, Nat.floor_lt (by linarith)]
    push_cast
    linarith
  obtain ⟨M', hM'⟩ := exists_codeUnits_eq P k _ hs
  generalize ⌊Y + 1 / 2⌋₊ = s at *
  calc |Y * 2 ^ k - codeUnits P M| ≤ |Y * 2 ^ k - codeUnits P M'| := (h M').1
    _ = |Y - s| * 2 ^ k := by
      rw [hM', Nat.cast_mul, Nat.cast_pow, Nat.cast_ofNat, ← sub_mul, abs_mul, abs_of_pos hpow]
    _ ≤ 1 / 2 * 2 ^ k := by
      refine mul_le_mul_of_nonneg_right (abs_le.mpr ⟨?_, ?_⟩) hpow.le <;> linarith
    _ = 2 ^ k / 2 := by ring

end Sys2Proof.Proofs
end

section
/-! The rounding of the model (spec/00_scope.md R8, spec/43_convert.md R142): the magnitude that it computes by integer arithmetic is
the nearest code of the exact ratio. -/

namespace Sys2Proof.Proofs

open Sys2Proof.Machine Sys2Proof.Laws

/-! ### The pieces, over the rationals -/

theorem two_zpow_eq_div (e : ℤ) : (2 : ℚ) ^ e = 2 ^ e.toNat / 2 ^ (-e).toNat := by
  obtain ⟨k, rfl | rfl⟩ := e.eq_nat_or_neg <;> simp

theorem ratioBelowPow_iff {n d : ℕ} (hd : 0 < d) (e : ℤ) : ratioBelowPow n d e = true ↔ (n : ℚ) / d < 2 ^ e := by
  have hd' : (0 : ℚ) < d := by exact_mod_cast hd
  rw [ratioBelowPow, decide_eq_true_eq, two_zpow_eq_div, div_lt_div_iff₀ hd' (by positivity), mul_comm (2 ^ e.toNat)]
  exact_mod_cast Iff.rfl

/-- A ratio is in the binade of its logarithm. -/
theorem two_zpow_ratioLog2 {n d : ℕ} (hn : n ≠ 0) (hd : 0 < d) :
    (2 : ℚ) ^ ratioLog2 n d ≤ n / d ∧ (n : ℚ) / d < 2 ^ (ratioLog2 n d + 1) := by
  obtain ⟨hlow, hhigh⟩ := ratioLog2_spec n d hn hd.ne'
  exact ⟨not_lt.mp (mt (ratioBelowPow_iff hd _).mpr (Bool.eq_false_iff.mp hlow)), (ratioBelowPow_iff hd _).mp hhigh⟩

theorem abs_div_sub_nearestEven {n d : ℕ} (hd : 0 < d) :
    |(n : ℚ) / d - nearestEven n d| ≤ 1 / 2 ∧ (|(n : ℚ) / d - nearestEven n d| = 1 / 2 → nearestEven n d % 2 = 0) := by
  have hd' : (0 : ℚ) < d := by exact_mod_cast hd
  have hdiv : (n : ℚ) / d * d = n := div_mul_cancel₀ _ hd'.ne'
  obtain ⟨hlow, hhigh, heven⟩ := nearestEven_spec n d hd
  generalize nearestEven n d = m at *
  generalize (n : ℚ) / d = q at *
  have hlow' : (2 * n : ℚ) ≤ 2 * (d * m) + d := by exact_mod_cast hlow
  have hhigh' : (2 * (d * m) : ℚ) ≤ 2 * n + d := by exact_mod_cast hhigh
  rw [← hdiv] at hlow' hhigh'
  constructor
  · rw [abs_le]
    constructor <;> nlinarith only [hlow', hhigh', hd']
  · intro htie
    apply heven
    rcases eq_or_eq_neg_of_abs_eq htie with h | h
    · left
      have hn : (2 * n : ℚ) = 2 * (d * m) + d := by rw [← hdiv, sub_eq_iff_eq_add.mp h]; ring
      exact_mod_cast hn
    · right
      have hn : (2 * (d * m) : ℚ) = 2 * n + d := by rw [← hdiv, sub_eq_iff_eq_add.mp h]; ring
      exact_mod_cast hn

/-- An integer within a half is as near as any other, and where another is as near both are a half away. -/
theorem abs_sub_le_abs_sub_int {q : ℚ} {s t : ℤ} (h : |q - s| ≤ 1 / 2) (hne : t ≠ s) :
    |q - s| ≤ |q - t| ∧ (|q - s| = |q - t| → |q - s| = 1 / 2) := by
  have hone : (1 : ℚ) ≤ |(t : ℚ) - s| := by exact_mod_cast Int.one_le_abs (sub_ne_zero.mpr hne)
  have htri : |(t : ℚ) - s| ≤ |q - s| + |q - t| := by
    have htri := abs_sub_le (t : ℚ) q s
    rw [abs_sub_comm (t : ℚ) q] at htri
    linarith
  exact ⟨by linarith, fun heq => by linarith⟩

/-! ### The rounded magnitude -/

/-- The format has `P` fraction bits, and its smallest value above zero is `2 ^ -G`. -/
structure HasBits (f : FloatFormat) (P G : ℕ) : Prop where
  precision_eq : f.precision = P + 1
  emin_eq : f.emin = P - G
  fraction_pos : 1 ≤ P

theorem binary32_hasBits : HasBits binary32 23 149 := ⟨rfl, rfl, by decide⟩

theorem binary64_hasBits : HasBits binary64 52 1074 := ⟨rfl, rfl, by decide⟩

/-- How far the binade in which a ratio is rounded stands above the lowest. -/
def scaleOf (f : FloatFormat) (n d : ℕ) : ℕ := (binade f n d - f.emin).toNat

theorem binade_eq (f : FloatFormat) (n d : ℕ) : binade f n d = f.emin + scaleOf f n d := by
  have hle : f.emin ≤ binade f n d := le_max_right _ _
  rw [scaleOf]
  omega

/-- In units of the smallest value, a ratio is below the top of its binade, and at or above its bottom but in the lowest. -/
theorem ratio_in_binade {f : FloatFormat} {P G n d : ℕ} (hf : HasBits f P G) (hn : n ≠ 0) (hd : 0 < d) :
    (n : ℚ) / d * 2 ^ G < 2 ^ (P + 1) * 2 ^ scaleOf f n d ∧
      (scaleOf f n d = 0 ∨ 2 ^ P * 2 ^ scaleOf f n d ≤ (n : ℚ) / d * 2 ^ G) := by
  obtain ⟨hlow, hhigh⟩ := two_zpow_ratioLog2 hn hd
  have hbinade := binade_eq f n d
  have hemin := hf.emin_eq
  have hG : (0 : ℚ) < 2 ^ G := by positivity
  have htop : (2 : ℚ) ^ (binade f n d + 1) * 2 ^ G = 2 ^ (P + 1) * 2 ^ scaleOf f n d := by
    rw [← zpow_natCast, ← zpow_natCast, ← zpow_natCast, ← zpow_add₀ two_ne_zero, ← zpow_add₀ two_ne_zero]
    congr 1
    push_cast
    omega
  constructor
  · rw [← htop]
    refine mul_lt_mul_of_pos_right (hhigh.trans_le (zpow_le_zpow_right₀ (by norm_num) ?_)) hG
    have hle : ratioLog2 n d ≤ binade f n d := le_max_left _ _
    omega
  · refine (Nat.eq_zero_or_pos _).imp_right fun hpos => ?_
    have hlog : binade f n d = ratioLog2 n d := by
      refine max_eq_left ?_
      by_contra hlt
      have hmin : binade f n d = f.emin := max_eq_right (not_le.mp hlt).le
      omega
    have hbottom : (2 : ℚ) ^ binade f n d * 2 ^ G = 2 ^ P * 2 ^ scaleOf f n d := by
      rw [← zpow_natCast, ← zpow_natCast, ← zpow_natCast, ← zpow_add₀ two_ne_zero, ← zpow_add₀ two_ne_zero]
      congr 1
      omega
    rw [← hbottom, hlog]
    exact mul_le_mul_of_nonneg_right hlow hG.le

/-- The significand is the integer nearest to the ratio in units of the last place of its binade. -/
theorem roundedSignificand_spec {f : FloatFormat} {P G n d : ℕ} (hf : HasBits f P G) (hd : 0 < d) :
    |(n : ℚ) / d * 2 ^ G / 2 ^ scaleOf f n d - roundedSignificand f n d| ≤ 1 / 2 ∧
      (|(n : ℚ) / d * 2 ^ G / 2 ^ scaleOf f n d - roundedSignificand f n d| = 1 / 2 →
        roundedSignificand f n d % 2 = 0) := by
  have hshift : (f.precision : ℤ) - 1 - binade f n d = G - scaleOf f n d := by
    rw [binade_eq, hf.precision_eq, hf.emin_eq]
    push_cast
    omega
  simp only [roundedSignificand, hshift]
  have hratio : (n : ℚ) / d * 2 ^ G / 2 ^ scaleOf f n d =
      ((n * 2 ^ ((G : ℤ) - scaleOf f n d).toNat : ℕ) : ℚ) / ((d * 2 ^ (-((G : ℤ) - scaleOf f n d)).toNat : ℕ) : ℚ) := by
    push_cast
    rw [mul_div_assoc, mul_div_mul_comm, ← two_zpow_eq_div, zpow_sub₀ two_ne_zero, zpow_natCast, zpow_natCast]
  rw [hratio]
  exact abs_div_sub_nearestEven (Nat.mul_pos hd (Nat.two_pow_pos _))

theorem roundedSignificand_isSignificand {f : FloatFormat} {P G n d : ℕ} (hf : HasBits f P G) (hn : n ≠ 0) (hd : 0 < d) :
    IsSignificand P (scaleOf f n d) (roundedSignificand f n d) := by
  obtain ⟨hhigh, hlow⟩ := ratio_in_binade hf hn hd
  obtain ⟨hnear, -⟩ := roundedSignificand_spec (n := n) hf hd
  have hpow : (0 : ℚ) < 2 ^ scaleOf f n d := by positivity
  rw [← div_lt_iff₀ hpow] at hhigh
  rw [← le_div_iff₀ hpow] at hlow
  generalize (n : ℚ) / d * 2 ^ G / 2 ^ scaleOf f n d = Y at *
  obtain ⟨hbelow, habove⟩ := abs_le.mp hnear
  constructor
  · rw [← Nat.lt_add_one_iff]
    have hlt : (roundedSignificand f n d : ℚ) < 2 ^ (P + 1) + 1 := by linarith
    exact_mod_cast hlt
  · refine hlow.imp_right fun hlow => ?_
    rw [← Nat.lt_add_one_iff]
    have hlt : (2 ^ P : ℚ) < roundedSignificand f n d + 1 := by linarith
    exact_mod_cast hlt

theorem abs_sub_mul_two_pow (X : ℚ) (t k : ℕ) : |X - (t * 2 ^ k : ℕ)| = |X / 2 ^ k - t| * 2 ^ k := by
  have hpow : (0 : ℚ) < 2 ^ k := by positivity
  rw [← abs_of_pos hpow, ← abs_mul, abs_of_pos hpow, sub_mul, div_mul_cancel₀ X hpow.ne']
  push_cast
  rfl

/-- Among the multiples of `2 ^ k`, that of the nearest integer is the nearest. -/
theorem abs_sub_multiple_le {k s t : ℕ} {X : ℚ} (hnear : |X / 2 ^ k - s| ≤ 1 / 2) :
    |X - (s * 2 ^ k : ℕ)| ≤ |X - (t * 2 ^ k : ℕ)| ∧
      (t ≠ s → |X - (s * 2 ^ k : ℕ)| = |X - (t * 2 ^ k : ℕ)| → |X / 2 ^ k - s| = 1 / 2) := by
  have hpow : (0 : ℚ) < 2 ^ k := by positivity
  rw [abs_sub_mul_two_pow, abs_sub_mul_two_pow]
  rcases eq_or_ne t s with rfl | hne
  · exact ⟨le_rfl, fun h => absurd rfl h⟩
  · have hint := abs_sub_le_abs_sub_int (q := X / 2 ^ k) (s := s) (t := t) (by exact_mod_cast hnear) (by exact_mod_cast hne)
    push_cast at hint
    exact ⟨mul_le_mul_of_nonneg_right hint.1 hpow.le, fun _ heq => hint.2 (mul_right_cancel₀ hpow.ne' heq)⟩

/-- The integer nearest to `X` in units of `2 ^ k`, put in the scale `k` of `X`, is the nearest of all values. -/
theorem isNearestCode_of_significand {P k s : ℕ} {X : ℚ} (hP : 1 ≤ P) (hs : IsSignificand P k s)
    (hX : k = 0 ∨ 2 ^ P * 2 ^ k ≤ X) (hnear : |X / 2 ^ k - s| ≤ 1 / 2)
    (heven : |X / 2 ^ k - s| = 1 / 2 → s % 2 = 0) : IsNearestCode P X (k * 2 ^ P + s) := by
  have hparity : s % 2 = 0 → (k * 2 ^ P + s) % 2 = 0 := fun h => by
    obtain ⟨j, rfl⟩ := Nat.exists_eq_add_of_le hP
    rwa [Nat.pow_add, pow_one, Nat.mul_left_comm, Nat.mul_add_mod]
  intro M'
  rw [codeUnits_eq hs]
  by_cases hdvd : 2 ^ k ∣ codeUnits P M'
  · obtain ⟨t, ht⟩ := hdvd
    rw [Nat.mul_comm] at ht
    rw [ht]
    have hmultiple := abs_sub_multiple_le (t := t) hnear
    refine ⟨hmultiple.1, fun hne heq => hparity (heven (hmultiple.2 ?_ heq))⟩
    rintro rfl
    exact hne ((codeUnits_strictMono P).injective (ht.trans (codeUnits_eq hs).symm))
  · have hbinade : 2 ^ P * 2 ^ k ≤ X := hX.resolve_left (by rintro rfl; exact hdvd (one_dvd _))
    have hbelow : (codeUnits P M' : ℚ) < (2 ^ P * 2 ^ k : ℕ) :=
      Nat.cast_lt.mpr (not_le.mp (mt two_pow_dvd_codeUnits hdvd))
    have hbottom := (abs_sub_multiple_le (t := 2 ^ P) hnear).1
    have hlt : |X - (s * 2 ^ k : ℕ)| < |X - codeUnits P M'| := by
      refine hbottom.trans_lt ?_
      push_cast at hbelow ⊢
      rw [abs_of_nonneg (by linarith), abs_of_nonneg (by linarith)]
      linarith
    exact ⟨hlt.le, fun _ heq => absurd heq hlt.ne⟩

theorem magnitudeBits_zero (f : FloatFormat) (d : ℕ) : magnitudeBits f 0 d = 0 := if_pos rfl

/-- Where the ratio is at most the largest finite value, the magnitude is its nearest code and is finite. -/
theorem magnitudeBits_isNearestCode {f : FloatFormat} {P G n d : ℕ} (hf : HasBits f P G) (hd : 0 < d)
    (hX : (n : ℚ) / d * 2 ^ G ≤ codeUnits P (f.expMax * 2 ^ P - 1)) :
    IsNearestCode P ((n : ℚ) / d * 2 ^ G) (magnitudeBits f n d) ∧ magnitudeBits f n d ≤ f.expMax * 2 ^ P - 1 := by
  rcases eq_or_ne n 0 with rfl | hn
  · rw [magnitudeBits_zero, Nat.cast_zero, zero_div, zero_mul]
    refine ⟨?_, Nat.zero_le _⟩
    simpa [codeUnits_zero] using isNearestCode_codeUnits P 0
  · obtain ⟨hnear, heven⟩ := roundedSignificand_spec (n := n) hf hd
    have hcode := isNearestCode_of_significand hf.fraction_pos (roundedSignificand_isSignificand hf hn hd)
      (ratio_in_binade hf hn hd).2 hnear heven
    have hle := hcode.le_of_le hX
    have hmag : magnitudeBits f n d = scaleOf f n d * 2 ^ P + roundedSignificand f n d := by
      rw [magnitudeBits, if_neg hn, hf.precision_eq, Nat.add_sub_cancel]
      exact min_eq_left (hle.trans (Nat.sub_le _ _))
    rw [hmag]
    exact ⟨hcode, hle⟩

end Sys2Proof.Proofs
end

section
/-! binary32 (spec/00_scope.md R8, R47): the value of an encoding by its sign bit and its magnitude code, and the rounding as the
nearest of all finite values. -/

namespace Sys2Proof.Proofs

open Sys2Proof.Machine Sys2Proof.Laws

/-! ### Encodings -/

/-- The encoding with a sign and a magnitude code. -/
def encodeFloat (negative : Bool) (M : ℕ) : FloatBits :=
  (if negative then 0x80000000 else 0) ||| BitVec.ofNat 32 M

/-- The magnitude code of an encoding: all its bits but the sign. -/
def magnitudeOf (b : FloatBits) : ℕ := b.toNat % 2 ^ 31

/-- The factor of a sign bit. -/
def signFactor (negative : Bool) : ℚ := if negative then -1 else 1

theorem rn32_eq_encodeFloat (n : ℤ) (d : ℕ) :
    rn32 n d = encodeFloat (decide (n < 0)) (magnitudeBits binary32 n.natAbs d) := by
  simp [rn32, encodeFloat]

theorem toNat_encodeFloat {M : ℕ} (hM : M < 2 ^ 31) (negative : Bool) :
    (encodeFloat negative M).toNat = (if negative then 2 ^ 31 else 0) + M := by
  have hmod : M % 2 ^ 32 = M := Nat.mod_eq_of_lt (by omega)
  cases negative with
  | true =>
    have hor := Nat.two_pow_add_eq_or_of_lt hM 1
    rw [Nat.mul_one] at hor
    rw [encodeFloat, BitVec.toNat_or, BitVec.toNat_ofNat, hmod, if_pos rfl, if_pos rfl, hor]
    rfl
  | false =>
    rw [encodeFloat, BitVec.toNat_or, BitVec.toNat_ofNat, hmod]
    simp

theorem magnitudeOf_encodeFloat {M : ℕ} (hM : M < 2 ^ 31) (negative : Bool) : magnitudeOf (encodeFloat negative M) = M := by
  rw [magnitudeOf, toNat_encodeFloat hM]
  split_ifs <;> omega

theorem msb_encodeFloat {M : ℕ} (hM : M < 2 ^ 31) (negative : Bool) : (encodeFloat negative M).msb = negative := by
  rw [BitVec.msb_eq_decide, toNat_encodeFloat hM]
  cases negative with
  | true => simp
  | false => simpa using hM

theorem exponentField_eq (b : FloatBits) : exponentField b = magnitudeOf b / 2 ^ 23 := by
  rw [exponentField, magnitudeOf, BitVec.extractLsb'_toNat, Nat.shiftRight_eq_div_pow]
  omega

theorem fractionField_eq (b : FloatBits) : fractionField b = magnitudeOf b % 2 ^ 23 := by
  rw [fractionField, magnitudeOf, BitVec.extractLsb'_toNat, Nat.shiftRight_zero]
  omega

theorem getLsbD_zero_eq_false_iff (b : FloatBits) : b.getLsbD 0 = false ↔ magnitudeOf b % 2 = 0 := by
  rw [magnitudeOf, BitVec.getLsbD, Nat.testBit_zero]
  simp

/-- The value of an encoding, by sign and magnitude code. -/
theorem floatValue?_eq (b : FloatBits) : floatValue? b =
    if magnitudeOf b / 2 ^ 23 = 255 then none
    else some (signFactor b.msb * codeUnits 23 (magnitudeOf b) / 2 ^ 149) := by
  rw [floatValue?, exponentField_eq, fractionField_eq, codeUnits, signFactor]
  split_ifs <;> push_cast <;> rfl

theorem floatValue?_eq_some_iff {b : FloatBits} {v : ℚ} : floatValue? b = some v ↔
    magnitudeOf b < 255 * 2 ^ 23 ∧ v = signFactor b.msb * codeUnits 23 (magnitudeOf b) / 2 ^ 149 := by
  have hlt : magnitudeOf b < 2 ^ 31 := Nat.mod_lt _ (by decide)
  have hfinite : magnitudeOf b / 2 ^ 23 = 255 ↔ ¬ magnitudeOf b < 255 * 2 ^ 23 := by omega
  rw [floatValue?_eq]
  by_cases h : magnitudeOf b < 255 * 2 ^ 23
  · rw [if_neg (mt hfinite.mp (not_not.mpr h)), Option.some_inj, eq_comm]
    exact (and_iff_right h).symm
  · rw [if_pos (hfinite.mpr h)]
    exact iff_of_false nofun fun hv => h hv.1

theorem floatValue?_encodeFloat {M : ℕ} (hM : M < 255 * 2 ^ 23) (negative : Bool) :
    floatValue? (encodeFloat negative M) = some (signFactor negative * codeUnits 23 M / 2 ^ 149) := by
  have hlt : M < 2 ^ 31 := by omega
  rw [floatValue?_eq_some_iff, magnitudeOf_encodeFloat hlt, msb_encodeFloat hlt]
  exact ⟨hM, rfl⟩

/-! ### The rounding, over the encodings -/

theorem codeUnits_maxFinite32 : (codeUnits 23 (255 * 2 ^ 23 - 1) : ℚ) = maxFinite32 * 2 ^ 149 := by
  have hsig : IsSignificand 23 253 (2 ^ 24 - 1) := ⟨by norm_num, .inr (by norm_num)⟩
  have hcode : 255 * 2 ^ 23 - 1 = 253 * 2 ^ 23 + (2 ^ 24 - 1) := by norm_num
  rw [hcode, codeUnits_eq hsig, maxFinite32]
  norm_num

theorem abs_intCast_div (n : ℤ) (d : ℕ) : |(n : ℚ) / d| = n.natAbs / d := by
  rw [abs_div, Nat.abs_cast, Nat.cast_natAbs, Int.cast_abs]

/-- A ratio is its sign times its magnitude. -/
theorem eq_signFactor_mul_abs (n : ℤ) (d : ℕ) : (n : ℚ) / d = signFactor (decide (n < 0)) * |(n : ℚ) / d| := by
  have hd : (0 : ℚ) ≤ d := Nat.cast_nonneg d
  by_cases h : n < 0
  · have hn : (n : ℚ) ≤ 0 := by exact_mod_cast h.le
    rw [abs_of_nonpos (div_nonpos_of_nonpos_of_nonneg hn hd)]
    simp [signFactor, h]
  · have hn : (0 : ℚ) ≤ n := by exact_mod_cast not_lt.mp h
    rw [abs_of_nonneg (div_nonneg hn hd)]
    simp [signFactor, h]

/-- In the finite range the magnitude that `rn32` encodes is the nearest code of the ratio's. -/
theorem magnitudeBits_binary32 {n : ℤ} {d : ℕ} (hd : 0 < d) (hq : |(n : ℚ) / d| ≤ maxFinite32) :
    IsNearestCode 23 (|(n : ℚ) / d| * 2 ^ 149) (magnitudeBits binary32 n.natAbs d) ∧
      magnitudeBits binary32 n.natAbs d < 255 * 2 ^ 23 := by
  rw [abs_intCast_div] at hq ⊢
  have hX := mul_le_mul_of_nonneg_right hq (show (0 : ℚ) ≤ 2 ^ 149 by positivity)
  rw [← codeUnits_maxFinite32] at hX
  obtain ⟨hnear, hle⟩ := magnitudeBits_isNearestCode binary32_hasBits hd hX
  exact ⟨hnear, Nat.lt_of_le_pred (by decide) hle⟩

theorem abs_signFactor (sign : Bool) : |signFactor sign| = 1 := by
  cases sign <;> simp [signFactor]

theorem signFactor_not (sign : Bool) : signFactor (!sign) = -signFactor sign := by
  cases sign <;> simp [signFactor]

theorem abs_signFactor_mul (sign : Bool) (x : ℚ) : |signFactor sign * x| = |x| := by
  rw [abs_mul, abs_signFactor, one_mul]

theorem abs_sub_div_two_pow (q a : ℚ) (k : ℕ) : |q - a / 2 ^ k| = |q * 2 ^ k - a| / 2 ^ k := by
  have hpos : (0 : ℚ) < 2 ^ k := by positivity
  rw [eq_div_iff hpos.ne', ← abs_of_pos hpos, ← abs_mul, abs_of_pos hpos, sub_mul, div_mul_cancel₀ a hpos.ne']

/-- The nearest code of a magnitude is, with the sign kept, no farther than any value of either sign. -/
theorem IsNearestCode.abs_sub_le_signed {X : ℚ} {M M' : ℕ} (h0 : 0 ≤ X) (h : IsNearestCode 23 X M) (sign sign' : Bool) :
    |X - codeUnits 23 M| ≤ |signFactor sign * X - signFactor sign' * codeUnits 23 M'| ∧
      (signFactor sign' * codeUnits 23 M' ≠ signFactor sign * codeUnits 23 M →
        |X - codeUnits 23 M| = |signFactor sign * X - signFactor sign' * codeUnits 23 M'| → M % 2 = 0) := by
  rcases eq_or_ne sign' sign with rfl | hsign
  · rw [← mul_sub, abs_signFactor_mul]
    exact ⟨(h M').1, fun hne => (h M').2 fun heq => hne (heq ▸ rfl)⟩
  · obtain rfl : sign' = !sign := Bool.eq_not_of_ne hsign
    have hU : (0 : ℚ) ≤ codeUnits 23 M' := Nat.cast_nonneg _
    obtain ⟨hzero, heven⟩ := h 0
    rw [codeUnits_zero, Nat.cast_zero, sub_zero, abs_of_nonneg h0] at hzero heven
    rw [signFactor_not, neg_mul, sub_neg_eq_add, ← mul_add, abs_signFactor_mul, abs_of_nonneg (add_nonneg h0 hU)]
    refine ⟨by linarith, fun hne heq => ?_⟩
    have hU0 : (codeUnits 23 M' : ℚ) = 0 := by linarith
    refine heven ?_ (by linarith)
    rintro rfl
    simp [hU0, codeUnits_zero] at hne

theorem nearestEven32_rn32 {n : ℤ} {d : ℕ} (hd : 0 < d) (hq : |(n : ℚ) / d| ≤ maxFinite32) :
    NearestEven32 ((n : ℚ) / d) (rn32 n d) := by
  obtain ⟨hnear, hfinite⟩ := magnitudeBits_binary32 hd hq
  have hsign := eq_signFactor_mul_abs n d
  rw [rn32_eq_encodeFloat]
  generalize decide (n < 0) = sign at *
  generalize magnitudeBits binary32 n.natAbs d = M at *
  generalize (n : ℚ) / d = q at *
  have h0 : 0 ≤ |q| * 2 ^ 149 := by positivity
  have hq' : q * 2 ^ 149 = signFactor sign * (|q| * 2 ^ 149) := by rw [← mul_assoc, ← hsign]
  refine ⟨_, floatValue?_encodeFloat hfinite sign, fun b' v' hv' => ?_⟩
  obtain ⟨-, rfl⟩ := floatValue?_eq_some_iff.mp hv'
  obtain ⟨hle, heven⟩ := hnear.abs_sub_le_signed (M' := magnitudeOf b') h0 sign b'.msb
  have hpos : (0 : ℚ) < 2 ^ 149 := by positivity
  rw [abs_sub_div_two_pow, abs_sub_div_two_pow, hq', ← mul_sub, abs_signFactor_mul, getLsbD_zero_eq_false_iff,
    magnitudeOf_encodeFloat (by omega), div_left_inj' hpos.ne']
  exact ⟨(div_le_div_iff_of_pos_right hpos).mpr hle, fun hne => heven fun h => hne (by rw [h])⟩

/-- Settles O26: the magnitude is nearest among the codes, and no value of the other sign is nearer. -/
theorem roundingIsNearestTiesToEven : Obligations.RoundingIsNearestTiesToEven := fun _ _ => nearestEven32_rn32

end Sys2Proof.Proofs
end

section
/-! The conversions (spec/43_convert.md R140 to R147). The divisor 65535 is odd, so an exact result with finitely many binary digits
is an integer, and no tie occurs; range, order and error then follow from the nearest code. -/

namespace Sys2Proof.Proofs

open Sys2Proof.Machine Sys2Proof.Laws

/-! ### Ratios over 65535 -/

/-- What a conversion rounds is at most 256 in magnitude. -/
def InConversionRange (n : ℤ) : Prop := n.natAbs ≤ 256 * 65535

/-- The magnitude code that `rn32` gives the ratio `n / 65535`. -/
def ratioCode (n : ℤ) : ℕ := magnitudeBits binary32 n.natAbs 65535

/-- The value that `rn32` gives the ratio `n / 65535`. -/
def ratioValue (n : ℤ) : ℚ := signFactor (decide (n < 0)) * codeUnits 23 (ratioCode n) / 2 ^ 149

theorem abs_ratio (n : ℤ) : |(n : ℚ) / 65535| = n.natAbs / 65535 := by
  exact_mod_cast abs_intCast_div n 65535

theorem InConversionRange.abs_ratio_le {n : ℤ} (hn : InConversionRange n) : |(n : ℚ) / 65535| ≤ 256 := by
  rw [abs_ratio, div_le_iff₀ (by norm_num)]
  exact_mod_cast hn

theorem InConversionRange.abs_ratio_le_maxFinite32 {n : ℤ} (hn : InConversionRange n) :
    |(n : ℚ) / 65535| ≤ maxFinite32 :=
  hn.abs_ratio_le.trans (by norm_num [maxFinite32])

theorem isNearestCode_ratioCode {n : ℤ} (hn : InConversionRange n) :
    IsNearestCode 23 (|(n : ℚ) / 65535| * 2 ^ 149) (ratioCode n) :=
  (magnitudeBits_binary32 (d := 65535) (by decide) hn.abs_ratio_le_maxFinite32).1

theorem ratioCode_lt {n : ℤ} (hn : InConversionRange n) : ratioCode n < 255 * 2 ^ 23 :=
  (magnitudeBits_binary32 (d := 65535) (by decide) hn.abs_ratio_le_maxFinite32).2

theorem rn32_ratio (n : ℤ) : rn32 n 65535 = encodeFloat (decide (n < 0)) (ratioCode n) :=
  rn32_eq_encodeFloat n 65535

theorem floatValue?_ratio {n : ℤ} (hn : InConversionRange n) : floatValue? (rn32 n 65535) = some (ratioValue n) := by
  rw [rn32_ratio]
  exact floatValue?_encodeFloat (ratioCode_lt hn) _

theorem msb_ratio {n : ℤ} (hn : InConversionRange n) : (rn32 n 65535).msb = decide (n < 0) := by
  rw [rn32_ratio]
  exact msb_encodeFloat ((ratioCode_lt hn).trans (by decide)) _

theorem exponentField_ratio {n : ℤ} (hn : InConversionRange n) : exponentField (rn32 n 65535) = ratioCode n / 2 ^ 23 := by
  rw [exponentField_eq, rn32_ratio, magnitudeOf_encodeFloat ((ratioCode_lt hn).trans (by decide))]

/-! ### Exact results and ties -/

theorem exists_int_of_floatValue? {b : FloatBits} {v : ℚ} (h : floatValue? b = some v) : ∃ z : ℤ, v = z / 2 ^ 149 := by
  obtain ⟨-, rfl⟩ := floatValue?_eq_some_iff.mp h
  cases b.msb with
  | true => exact ⟨-codeUnits 23 (magnitudeOf b), by simp [signFactor]⟩
  | false => exact ⟨codeUnits 23 (magnitudeOf b), by simp [signFactor]⟩

/-- A ratio over 65535 with finitely many binary digits is an integer. -/
theorem dvd_of_ratio_eq_dyadic {n z : ℤ} {k : ℕ} (h : (n : ℚ) / 65535 = z / 2 ^ k) : (65535 : ℤ) ∣ n := by
  rw [div_eq_div_iff (by norm_num) (by positivity)] at h
  have hmul : n * 2 ^ k = z * 65535 := by exact_mod_cast h
  have hcoprime : IsCoprime (65535 : ℤ) (2 ^ k) := IsCoprime.pow_right (by norm_num)
  exact hcoprime.dvd_of_dvd_mul_right (hmul ▸ Dvd.intro_left z rfl)

/-- An integer result is a value. -/
theorem exists_codeUnits_of_dvd {n : ℤ} (hn : InConversionRange n) (hdvd : (65535 : ℤ) ∣ n) :
    ∃ M, |(n : ℚ) / 65535| * 2 ^ 149 = codeUnits 23 M := by
  obtain ⟨j, rfl⟩ := hdvd
  have hj : j.natAbs ≤ 2 ^ (23 + 1) := by
    unfold InConversionRange at hn
    omega
  obtain ⟨M, hM⟩ := exists_codeUnits_eq 23 149 _ hj
  refine ⟨M, ?_⟩
  rw [hM, Int.cast_mul, Int.cast_ofNat, mul_div_cancel_left₀ _ (by norm_num), Nat.cast_mul, Nat.cast_natAbs, Int.cast_abs,
    Nat.cast_pow, Nat.cast_ofNat]

theorem ratioCode_exact_of_dvd {n : ℤ} (hn : InConversionRange n) (hdvd : (65535 : ℤ) ∣ n) :
    |(n : ℚ) / 65535| * 2 ^ 149 = codeUnits 23 (ratioCode n) := by
  obtain ⟨M, hM⟩ := exists_codeUnits_of_dvd hn hdvd
  exact (isNearestCode_ratioCode hn).eq_codeUnits hM

theorem ratio_eq_signFactor_mul (n : ℤ) : (n : ℚ) / 65535 = signFactor (decide (n < 0)) * |(n : ℚ) / 65535| := by
  exact_mod_cast eq_signFactor_mul_abs n 65535

/-- The error of the value is that of its magnitude. -/
theorem abs_ratioValue_sub (n : ℤ) :
    |ratioValue n - n / 65535| = |(|(n : ℚ) / 65535| * 2 ^ 149) - codeUnits 23 (ratioCode n)| / 2 ^ 149 := by
  have hratio : (n : ℚ) / 65535 * 2 ^ 149 = signFactor (decide (n < 0)) * (|(n : ℚ) / 65535| * 2 ^ 149) := by
    rw [← mul_assoc, ← ratio_eq_signFactor_mul]
  rw [abs_sub_comm, ratioValue, abs_sub_div_two_pow, hratio, ← mul_sub, abs_signFactor_mul]

theorem ratioValue_eq_iff {n : ℤ} (hn : InConversionRange n) : ratioValue n = n / 65535 ↔ (65535 : ℤ) ∣ n := by
  constructor
  · intro h
    obtain ⟨z, hz⟩ := exists_int_of_floatValue? (floatValue?_ratio hn)
    exact dvd_of_ratio_eq_dyadic (h.symm.trans hz)
  · intro hdvd
    rw [← sub_eq_zero, ← abs_eq_zero, abs_ratioValue_sub, ratioCode_exact_of_dvd hn hdvd, sub_self, abs_zero, zero_div]

/-- No tie occurs: the middle of two values has finitely many binary digits, and an integer is itself a value. -/
theorem uniquelyNearest32_ratio {n : ℤ} (hn : InConversionRange n) :
    UniquelyNearest32 ((n : ℚ) / 65535) (rn32 n 65535) := by
  obtain ⟨v, hv, hnear⟩ := nearestEven32_rn32 (n := n) (d := 65535) (by decide) hn.abs_ratio_le_maxFinite32
  refine ⟨v, hv, fun b' v' hv' hne => (hnear b' v' hv').1.lt_of_ne fun htie => hne ?_⟩
  obtain ⟨z, hz⟩ := exists_int_of_floatValue? hv
  obtain ⟨z', hz'⟩ := exists_int_of_floatValue? hv'
  rcases abs_eq_abs.mp htie with h | h
  · exact (sub_right_inj.mp h).symm
  · have hmiddle : (n : ℚ) / 65535 = ((z + z' : ℤ) : ℚ) / 2 ^ 150 := by
      rw [hz, hz'] at h
      push_cast
      linarith
    have hexact := (ratioValue_eq_iff hn).mpr (dvd_of_ratio_eq_dyadic hmiddle)
    obtain rfl : v = ratioValue n := Option.some.inj (hv.symm.trans (floatValue?_ratio hn))
    linarith

/-! ### Error bounds and order -/

theorem abs_ratioValue_sub_le {n : ℤ} {k : ℕ} (hn : InConversionRange n)
    (hX : |(n : ℚ) / 65535| * 2 ^ 149 ≤ 2 ^ 24 * 2 ^ k) : |ratioValue n - n / 65535| ≤ 2 ^ k / 2 ^ 150 := by
  have hle := (isNearestCode_ratioCode hn).abs_sub_le_of_le (by positivity) hX
  rw [abs_ratioValue_sub]
  refine (div_le_div_of_nonneg_right hle (by positivity)).trans_eq ?_
  ring

theorem abs_ratioValue_sub_le_of_range {n : ℤ} (hn : InConversionRange n) : |ratioValue n - n / 65535| ≤ 1 / 2 ^ 17 := by
  have hX : |(n : ℚ) / 65535| * 2 ^ 149 ≤ 2 ^ 24 * 2 ^ 133 := by linarith [hn.abs_ratio_le]
  exact (abs_ratioValue_sub_le hn hX).trans (by norm_num)

/-- Two ratios are farther from each other than both their errors together. -/
theorem ratioValue_lt {n n' : ℤ} (hn : InConversionRange n) (hn' : InConversionRange n') (h : n < n') :
    ratioValue n < ratioValue n' := by
  have herr := abs_le.mp (abs_ratioValue_sub_le_of_range hn)
  have herr' := abs_le.mp (abs_ratioValue_sub_le_of_range hn')
  have hgap : (n : ℚ) / 65535 + 1 / 65535 ≤ n' / 65535 := by
    rw [← add_div]
    exact div_le_div_of_nonneg_right (by exact_mod_cast h) (by norm_num)
  linarith

/-- A ratio of at least `16 / 65535`, which is above `2 ^ -12`, is normal. -/
theorem exponentField_ratio_pos {n : ℤ} (hn : InConversionRange n) (h16 : 16 ≤ n.natAbs) :
    1 ≤ exponentField (rn32 n 65535) := by
  have hsig : IsSignificand 23 114 (2 ^ 23) := ⟨by norm_num, .inr le_rfl⟩
  have hge : ((codeUnits 23 (114 * 2 ^ 23 + 2 ^ 23) : ℕ) : ℚ) ≤ |(n : ℚ) / 65535| * 2 ^ 149 := by
    have h16' : (16 : ℚ) ≤ n.natAbs := by exact_mod_cast h16
    rw [codeUnits_eq hsig, abs_ratio]
    push_cast
    linarith
  have hcode := (isNearestCode_ratioCode hn).ge_of_ge hge
  rw [exponentField_ratio hn]
  omega

theorem exponentField_ratio_le {n : ℤ} (hn : InConversionRange n) : exponentField (rn32 n 65535) ≤ 254 := by
  have hlt := ratioCode_lt hn
  rw [exponentField_ratio hn]
  omega

/-- The error is at most half a unit in the last place of the result's binade (R147). -/
theorem abs_ratioValue_sub_le_half_ulp {n : ℤ} (hn : InConversionRange n) (hzero : n = 0 ∨ 16 ≤ n.natAbs) :
    |ratioValue n - n / 65535| ≤ 2 ^ exponentField (rn32 n 65535) / 2 ^ 151 := by
  rcases hzero with rfl | h16
  · rw [(ratioValue_eq_iff hn).mpr (dvd_zero _), sub_self, abs_zero]
    positivity
  · have hle := (isNearestCode_ratioCode hn).abs_sub_le_half_ulp (by positivity)
    have hpos := exponentField_ratio_pos hn h16
    rw [exponentField_ratio hn] at hpos ⊢
    obtain ⟨E, hE⟩ := Nat.exists_eq_add_of_le' hpos
    rw [hE, Nat.add_sub_cancel] at hle
    rw [hE, abs_ratioValue_sub, div_le_iff₀ (by positivity)]
    refine hle.trans_eq ?_
    rw [pow_succ]
    ring

end Sys2Proof.Proofs
end

section
/-! The two formulas of the conversions (spec/43_convert.md R143 to R147) and what `HUM`, `TEMP` and `MEAS` answer: facts about the
two numerators, put into those about ratios over 65535. -/

namespace Sys2Proof.Proofs

open Sys2Proof.Machine Sys2Proof.Laws

/-! ### The numerators -/

theorem humNumerator_inRange (raw : Halfword) : InConversionRange (humNumerator raw) := by
  have hlt := raw.isLt
  unfold InConversionRange humNumerator
  omega

theorem tempNumerator_inRange (raw : Halfword) : InConversionRange (tempNumerator raw) := by
  have hlt := raw.isLt
  unfold InConversionRange tempNumerator conversionDivisor
  omega

theorem exactHum_eq (raw : Halfword) : exactHum raw = humNumerator raw / 65535 := by
  simp [exactHum, humNumerator]

theorem exactTemp_eq (raw : Halfword) : exactTemp raw = tempNumerator raw / 65535 := by
  simp only [exactTemp, tempNumerator, conversionDivisor]
  push_cast
  ring

theorem humNumerator_nonneg (raw : Halfword) : 0 ≤ humNumerator raw := by
  unfold humNumerator
  omega

theorem humNumerator_natAbs_ge {raw : Halfword} (h : raw ≠ 0) : 16 ≤ (humNumerator raw).natAbs := by
  have hne : raw.toNat ≠ 0 := fun h0 => h (BitVec.eq_of_toNat_eq h0)
  unfold humNumerator
  omega

/-- No raw code is nearer to a temperature of zero than 25 in the numerator. -/
theorem tempNumerator_natAbs_ge (raw : Halfword) : 16 ≤ (tempNumerator raw).natAbs := by
  unfold tempNumerator conversionDivisor
  omega

theorem tempNumerator_neg_iff (raw : Halfword) : tempNumerator raw < 0 ↔ raw.toNat ≤ 16851 := by
  unfold tempNumerator conversionDivisor
  omega

theorem dvd_humNumerator_iff (raw : Halfword) : (65535 : ℤ) ∣ humNumerator raw ↔ 13107 ∣ raw.toNat := by
  unfold humNumerator
  omega

theorem dvd_tempNumerator_iff (raw : Halfword) : (65535 : ℤ) ∣ tempNumerator raw ↔ 13107 ∣ raw.toNat := by
  unfold tempNumerator conversionDivisor
  omega

theorem exactTemp_neg_iff (raw : Halfword) : exactTemp raw < 0 ↔ tempNumerator raw < 0 := by
  rw [exactTemp_eq, div_lt_iff₀ (by norm_num), zero_mul]
  exact Int.cast_lt_zero

theorem uniquelyNearest32_humBits (raw : Halfword) : UniquelyNearest32 (exactHum raw) (humBits raw) :=
  exactHum_eq raw ▸ uniquelyNearest32_ratio (humNumerator_inRange raw)

theorem uniquelyNearest32_tempBits (raw : Halfword) : UniquelyNearest32 (exactTemp raw) (tempBits raw) :=
  exactTemp_eq raw ▸ uniquelyNearest32_ratio (tempNumerator_inRange raw)

theorem msb_humBits (raw : Halfword) : (humBits raw).msb = false :=
  (msb_ratio (humNumerator_inRange raw)).trans (decide_eq_false (not_lt.mpr (humNumerator_nonneg raw)))

theorem msb_tempBits_iff (raw : Halfword) : (tempBits raw).msb = true ↔ tempNumerator raw < 0 := by
  rw [show (tempBits raw).msb = decide (tempNumerator raw < 0) from msb_ratio (tempNumerator_inRange raw),
    decide_eq_true_iff]

/-! ### What the operations answer -/

/-- Settles O24: the humidity's ratio is rounded to the nearest value, without a tie. -/
theorem humAnswersTheNearestFloat : Obligations.HumAnswersTheNearestFloat := fun raw s =>
  ⟨humBits raw, msb_humBits raw, uniquelyNearest32_humBits raw, exec_hum raw s⟩

/-- Settles O25: the temperature's ratio is rounded to the nearest value, without a tie, and keeps its sign. -/
theorem tempAnswersTheNearestFloat : Obligations.TempAnswersTheNearestFloat := fun raw s =>
  ⟨tempBits raw, (msb_tempBits_iff raw).trans (exactTemp_neg_iff raw).symm, uniquelyNearest32_tempBits raw, exec_temp raw s⟩

/-- Settles O33: with both checks passed the result is the two encodings, else there is none. -/
theorem measAnswersBothValuesOrIntegrity : Obligations.MeasAnswersBothValuesOrIntegrity := by
  intro h0 h1 hc t0 t1 tc s
  have hchecks : (checksumPasses h0 h1 hc && checksumPasses t0 t1 tc) = true ↔ crc8 h0 h1 = hc ∧ crc8 t0 t1 = tc := by
    rw [Bool.and_eq_true, checksumPasses_iff, checksumPasses_iff]
  rw [exec_meas, instrResponse, ← hchecks]
  refine ⟨fun hpass => ?_, fun hfail => by rw [if_neg hfail]; rfl⟩
  rw [if_pos hpass]
  exact ⟨humBits (h0 ++ h1), tempBits (t0 ++ t1), msb_humBits _, uniquelyNearest32_humBits _,
    uniquelyNearest32_tempBits _, rfl⟩

/-! ### Range, order, exactness and error -/

/-- Settles O28: only raw 0 gives a ratio below the normal range, and no result is above the finite one. -/
theorem conversionsGiveNormalNumbers : Obligations.ConversionsGiveNormalNumbers := by
  intro raw
  have hhum := humNumerator_inRange raw
  have htemp := tempNumerator_inRange raw
  refine ⟨?_, fun hne => ⟨exponentField_ratio_pos hhum (humNumerator_natAbs_ge hne), exponentField_ratio_le hhum,
    msb_humBits raw⟩, exponentField_ratio_pos htemp (tempNumerator_natAbs_ge raw), exponentField_ratio_le htemp,
    (msb_tempBits_iff raw).trans (tempNumerator_neg_iff raw)⟩
  rintro rfl
  decide

theorem abs_humValue_sub_le (raw : Halfword) : |ratioValue (humNumerator raw) - humNumerator raw / 65535| ≤ 1 / 2 ^ 18 := by
  have hle : ((humNumerator raw).natAbs : ℚ) ≤ 128 * 65535 := by
    have hlt := raw.isLt
    have hnat : (humNumerator raw).natAbs ≤ 128 * 65535 := by
      unfold humNumerator
      omega
    exact_mod_cast hnat
  have hX : |(humNumerator raw : ℚ) / 65535| * 2 ^ 149 ≤ 2 ^ 24 * 2 ^ 132 := by
    rw [abs_ratio]
    linarith
  exact (abs_ratioValue_sub_le (humNumerator_inRange raw) hX).trans (by norm_num)

/-- Settles O29: half a unit in the last place at the result's code, and in the top binades at the scale of the whole range. -/
theorem roundingErrorIsHalfAnUlp : Obligations.RoundingErrorIsHalfAnUlp := by
  intro raw
  have hhum := humNumerator_inRange raw
  have htemp := tempNumerator_inRange raw
  have hzero : humNumerator raw = 0 ∨ 16 ≤ (humNumerator raw).natAbs := by
    rcases eq_or_ne raw 0 with rfl | hne
    · exact .inl rfl
    · exact .inr (humNumerator_natAbs_ge hne)
  refine ⟨ratioValue (humNumerator raw), ratioValue (tempNumerator raw), floatValue?_ratio hhum, ?_, fun _ => ?_,
    floatValue?_ratio htemp, ?_, fun _ => ?_⟩
  · rw [exactHum_eq]
    exact abs_ratioValue_sub_le_half_ulp hhum hzero
  · rw [exactHum_eq]
    exact abs_humValue_sub_le raw
  · rw [exactTemp_eq]
    exact abs_ratioValue_sub_le_half_ulp htemp (.inr (tempNumerator_natAbs_ge raw))
  · rw [exactTemp_eq]
    exact abs_ratioValue_sub_le_of_range htemp

theorem ratioValue_of_eq_mul {n j : ℤ} (hn : InConversionRange n) (h : n = j * 65535) : ratioValue n = j := by
  subst h
  rw [(ratioValue_eq_iff hn).mpr (Dvd.intro_left j rfl), Int.cast_mul, Int.cast_ofNat]
  exact mul_div_cancel_right₀ _ (by norm_num)

theorem ratioValue_le {n n' : ℤ} (hn : InConversionRange n) (hn' : InConversionRange n') (h : n ≤ n') :
    ratioValue n ≤ ratioValue n' := by
  rcases h.eq_or_lt with rfl | hlt
  · exact le_rfl
  · exact (ratioValue_lt hn hn' hlt).le

theorem humNumerator_mem (raw : Halfword) : humNumerator 0 ≤ humNumerator raw ∧ humNumerator raw ≤ humNumerator 65535 := by
  have hlt := raw.isLt
  simp only [humNumerator, BitVec.reduceToNat]
  omega

theorem tempNumerator_mem (raw : Halfword) :
    tempNumerator 0 ≤ tempNumerator raw ∧ tempNumerator raw ≤ tempNumerator 65535 := by
  have hlt := raw.isLt
  simp only [tempNumerator, conversionDivisor, BitVec.reduceToNat]
  omega

theorem humNumerator_lt {a b : Halfword} (h : a.toNat < b.toNat) : humNumerator a < humNumerator b := by
  unfold humNumerator
  omega

theorem tempNumerator_lt {a b : Halfword} (h : a.toNat < b.toNat) : tempNumerator a < tempNumerator b := by
  unfold tempNumerator
  omega

/-- Settles O27: rounding keeps the order of the ratios, and is exact where they are integers. -/
theorem conversionRangeAndMonotonicity : Obligations.ConversionRangeAndMonotonicity := by
  have hhum := humNumerator_inRange
  have htemp := tempNumerator_inRange
  have hhum0 : ratioValue (humNumerator 0) = 0 := by
    exact_mod_cast ratioValue_of_eq_mul (j := 0) (hhum 0) (by decide)
  have hhum1 : ratioValue (humNumerator 65535) = 100 := by
    exact_mod_cast ratioValue_of_eq_mul (j := 100) (hhum 65535) (by decide)
  have htemp0 : ratioValue (tempNumerator 0) = -45 := by
    exact_mod_cast ratioValue_of_eq_mul (j := -45) (htemp 0) (by decide)
  have htemp1 : ratioValue (tempNumerator 65535) = 130 := by
    exact_mod_cast ratioValue_of_eq_mul (j := 130) (htemp 65535) (by decide)
  refine ⟨⟨fun raw => ratioValue (humNumerator raw), fun raw => ratioValue (tempNumerator raw),
    fun raw => ⟨floatValue?_ratio (hhum raw), floatValue?_ratio (htemp raw)⟩, fun raw => ?_,
    ⟨hhum0, hhum1, htemp0, htemp1⟩, fun a b hab => ⟨ratioValue_lt (hhum a) (hhum b) (humNumerator_lt hab),
      ratioValue_lt (htemp a) (htemp b) (tempNumerator_lt hab)⟩, fun raw => ⟨?_, ?_⟩⟩, by decide⟩
  · obtain ⟨hlow, hhigh⟩ := humNumerator_mem raw
    obtain ⟨tlow, thigh⟩ := tempNumerator_mem raw
    exact ⟨hhum0 ▸ ratioValue_le (hhum 0) (hhum raw) hlow, hhum1 ▸ ratioValue_le (hhum raw) (hhum 65535) hhigh,
      htemp0 ▸ ratioValue_le (htemp 0) (htemp raw) tlow, htemp1 ▸ ratioValue_le (htemp raw) (htemp 65535) thigh⟩
  · rw [exactHum_eq, ratioValue_eq_iff (hhum raw), dvd_humNumerator_iff]
  · rw [exactTemp_eq, ratioValue_eq_iff (htemp raw), dvd_tempNumerator_iff]

end Sys2Proof.Proofs
end

section
/-! Evaluation in a format throughout (spec/43_convert.md R142): one rounding as a map of rationals, and the intermediates of the
source's expressions, of which the product is exact. -/

namespace Sys2Proof.Proofs

open Sys2Proof.Machine Sys2Proof.Laws

/-! ### One rounding, as a rational -/

theorem two_pow_mul_eq {R : Type} [Semiring R] {a b c d : ℕ} (h : a + b = c + d) : (2 : R) ^ a * 2 ^ b = 2 ^ c * 2 ^ d := by
  rw [← pow_add, ← pow_add, h]

/-- A numerator and its denominator as a rational. -/
def toRat (q : ℤ × ℕ) : ℚ := q.1 / q.2

/-- A format in which no intermediate of the conversions overflows. -/
structure HoldsIntermediates (f : FloatFormat) (P G : ℕ) : Prop extends HasBits f P G where
  integers : 23 ≤ P
  finite : 2 ^ 24 * 2 ^ G ≤ codeUnits P (f.expMax * 2 ^ P - 1)

theorem binary32_holdsIntermediates : HoldsIntermediates binary32 23 149 where
  toHasBits := binary32_hasBits
  integers := le_rfl
  finite := by
    have hle : (2 ^ 24 * 2 ^ 149 : ℚ) ≤ codeUnits 23 (255 * 2 ^ 23 - 1) := by
      rw [codeUnits_maxFinite32, maxFinite32]
      norm_num
    exact_mod_cast hle

theorem binary64_holdsIntermediates : HoldsIntermediates binary64 52 1074 where
  toHasBits := binary64_hasBits
  integers := by decide
  finite := by
    have hsig : IsSignificand 52 1046 (2 ^ 52) := ⟨by norm_num, .inr le_rfl⟩
    rw [two_pow_mul_eq (c := 52) (d := 1046) (by decide), ← codeUnits_eq hsig]
    exact (codeUnits_strictMono 52).monotone (by decide)

section
variable {f : FloatFormat} {P G : ℕ} {q : ℤ × ℕ}

/-- The magnitude code that `roundTo` gives a ratio. -/
def roundedCode (f : FloatFormat) (q : ℤ × ℕ) : ℕ := magnitudeBits f q.1.natAbs q.2

theorem isNearestCode_roundedCode (hf : HoldsIntermediates f P G) (hd : 0 < q.2) (hq : |toRat q| ≤ 2 ^ 24) :
    IsNearestCode P (|toRat q| * 2 ^ G) (roundedCode f q) := by
  have hX : |toRat q| * 2 ^ G ≤ codeUnits P (f.expMax * 2 ^ P - 1) := by
    refine (mul_le_mul_of_nonneg_right hq (by positivity)).trans ?_
    exact_mod_cast hf.finite
  rw [toRat, abs_intCast_div] at hX ⊢
  exact (magnitudeBits_isNearestCode hf.toHasBits hd hX).1

theorem formatValue_eq (hf : HasBits f P G) (negative : Bool) (M : ℕ) :
    formatValue f negative M = (if negative then -(codeUnits P M : ℤ) else codeUnits P M, 2 ^ G) := by
  have hG : ((P : ℤ) - ((P : ℤ) - G)).toNat = G := by omega
  simp only [formatValue, hf.precision_eq, hf.emin_eq, Nat.add_sub_cancel, Nat.cast_add, Nat.cast_one,
    add_sub_cancel_right, hG]
  rfl

theorem roundTo_den_pos (hf : HasBits f P G) (q : ℤ × ℕ) : 0 < (roundTo f q).2 := by
  rw [roundTo, formatValue_eq hf]
  exact Nat.two_pow_pos G

theorem toRat_roundTo (hf : HasBits f P G) (q : ℤ × ℕ) :
    toRat (roundTo f q) = signFactor (decide (q.1 < 0)) * codeUnits P (roundedCode f q) / 2 ^ G := by
  rw [roundTo, formatValue_eq hf, toRat, roundedCode]
  cases decide (q.1 < 0) <;> simp [signFactor]

theorem toRat_eq_signFactor_mul (q : ℤ × ℕ) : toRat q = signFactor (decide (q.1 < 0)) * |toRat q| :=
  eq_signFactor_mul_abs q.1 q.2

theorem abs_toRat_roundTo_sub (hf : HasBits f P G) (q : ℤ × ℕ) :
    |toRat (roundTo f q) - toRat q| = |(|toRat q| * 2 ^ G) - codeUnits P (roundedCode f q)| / 2 ^ G := by
  have hq : toRat q * 2 ^ G = signFactor (decide (q.1 < 0)) * (|toRat q| * 2 ^ G) := by
    rw [← mul_assoc, ← toRat_eq_signFactor_mul]
  rw [abs_sub_comm, toRat_roundTo hf, abs_sub_div_two_pow, hq, ← mul_sub, abs_signFactor_mul]

/-- An integer of at most 24 bits is kept. -/
theorem toRat_roundTo_int (hf : HoldsIntermediates f P G) {m : ℤ} (hm : m.natAbs ≤ 2 ^ 24) :
    toRat (roundTo f (m, 1)) = m := by
  have hrat : toRat (m, 1) = m := by simp [toRat]
  have habs : |(m : ℚ)| = m.natAbs := by rw [Nat.cast_natAbs, Int.cast_abs]
  have hrange : |toRat (m, 1)| ≤ 2 ^ 24 := by
    rw [hrat, habs]
    exact_mod_cast hm
  have hbits : m.natAbs ≤ 2 ^ (P + 1) := hm.trans (Nat.pow_le_pow_right (by decide) (Nat.succ_le_succ hf.integers))
  obtain ⟨M, hM⟩ := exists_codeUnits_eq P G m.natAbs hbits
  have hvalue : |toRat (m, 1)| * 2 ^ G = codeUnits P M := by
    rw [hM, hrat, habs]
    push_cast
    rfl
  have hexact := (isNearestCode_roundedCode hf Nat.one_pos hrange).eq_codeUnits hvalue
  rw [← sub_eq_zero, ← abs_eq_zero, ← hrat, abs_toRat_roundTo_sub hf.toHasBits, hexact, sub_self, abs_zero, zero_div]

end

/-- Rounding to binary64 moves a number of at most 256 by at most `2 ^ -46`. -/
theorem abs_toRat_roundTo_binary64_sub_le {q : ℤ × ℕ} (hd : 0 < q.2) (hq : |toRat q| ≤ 2 ^ 8) :
    |toRat (roundTo binary64 q) - toRat q| ≤ 1 / 2 ^ 46 := by
  have hnear := isNearestCode_roundedCode binary64_holdsIntermediates hd (hq.trans (by norm_num))
  have hX : |toRat q| * 2 ^ 1074 ≤ 2 ^ (52 + 1) * 2 ^ 1029 :=
    (mul_le_mul_of_nonneg_right hq (by positivity)).trans_eq (two_pow_mul_eq (by decide))
  have hle := hnear.abs_sub_le_of_le (by positivity) hX
  rw [abs_toRat_roundTo_sub binary64_hasBits, div_le_div_iff₀ (by positivity) (by positivity)]
  have hpow : (2 : ℚ) ^ 1029 * 2 ^ 46 = 2 ^ 1 * 2 ^ 1074 := two_pow_mul_eq (by decide)
  generalize (2 : ℚ) ^ 1029 = x at *
  generalize (2 : ℚ) ^ 1074 = y at *
  linarith

/-! ### The intermediates of the conversions -/

/-- The quotient of the source's expressions: the exact product divided by 65535, rounded once. -/
def quotientIn (f : FloatFormat) (m : ℤ) : ℤ × ℕ :=
  roundTo f ((roundTo f (m, 1)).1, (roundTo f (m, 1)).2 * 65535)

/-- The difference of the temperature's expression. -/
def differenceIn (f : FloatFormat) (m : ℤ) : ℤ × ℕ :=
  roundTo f ((quotientIn f m).1 - 45 * ((quotientIn f m).2 : ℤ), (quotientIn f m).2)

theorem humEvaluatedIn_eq (f : FloatFormat) (raw : Halfword) : humEvaluatedIn f raw =
    rn32 (quotientIn f (humNumerator raw)).1 (quotientIn f (humNumerator raw)).2 := rfl

theorem tempEvaluatedIn_eq (f : FloatFormat) (raw : Halfword) : tempEvaluatedIn f raw =
    rn32 (differenceIn f ((raw.toNat : ℤ) * 175)).1 (differenceIn f ((raw.toNat : ℤ) * 175)).2 := rfl

theorem toRat_mul_den (q : ℤ × ℕ) (k : ℕ) : toRat (q.1, q.2 * k) = toRat q / k := by
  rw [toRat, toRat, Nat.cast_mul, div_div]

theorem toRat_sub_mul_den {q : ℤ × ℕ} (hd : 0 < q.2) (k : ℤ) : toRat (q.1 - k * (q.2 : ℤ), q.2) = toRat q - k := by
  have hne : (q.2 : ℚ) ≠ 0 := by exact_mod_cast hd.ne'
  simp only [toRat]
  push_cast
  rw [sub_div, mul_div_cancel_right₀ _ hne]

/-- What the quotient rounds is the exact ratio. -/
theorem toRat_product_div {f : FloatFormat} {P G : ℕ} (hf : HoldsIntermediates f P G) {m : ℤ} (hm : m.natAbs ≤ 2 ^ 24) :
    toRat ((roundTo f (m, 1)).1, (roundTo f (m, 1)).2 * 65535) = m / 65535 := by
  rw [toRat_mul_den, toRat_roundTo_int hf hm]
  rfl

theorem product_den_pos {f : FloatFormat} {P G : ℕ} (hf : HasBits f P G) (m : ℤ) : 0 < (roundTo f (m, 1)).2 * 65535 :=
  Nat.mul_pos (roundTo_den_pos hf _) (by decide)

theorem abs_quotientIn_binary64_sub_le {m : ℤ} (hm : m.natAbs ≤ 2 ^ 24 - 2 ^ 8) :
    |toRat (quotientIn binary64 m) - m / 65535| ≤ 1 / 2 ^ 46 := by
  have hproduct := toRat_product_div binary64_holdsIntermediates (m := m) (by omega)
  have hrange : |(m : ℚ) / 65535| ≤ 2 ^ 8 := by
    have hle : (m.natAbs : ℚ) ≤ 2 ^ 24 - 2 ^ 8 := by
      have hcast : ((m.natAbs : ℕ) : ℚ) ≤ ((2 ^ 24 - 2 ^ 8 : ℕ) : ℚ) := Nat.cast_le.mpr hm
      norm_num at hcast ⊢
      exact hcast
    rw [abs_ratio]
    linarith
  rw [← hproduct] at hrange ⊢
  exact abs_toRat_roundTo_binary64_sub_le (product_den_pos binary64_hasBits m) hrange

theorem abs_differenceIn_binary64_sub_le {m : ℤ} (h0 : 0 ≤ m) (hm : m ≤ 65535 * 175) :
    |toRat (differenceIn binary64 m) - (m - 45 * 65535 : ℤ) / 65535| ≤ 1 / 2 ^ 45 := by
  have hquotient := abs_le.mp (abs_quotientIn_binary64_sub_le (m := m) (by omega))
  have hden : 0 < (quotientIn binary64 m).2 := roundTo_den_pos binary64_hasBits _
  have hdifference := toRat_sub_mul_den hden 45
  have h0' : (0 : ℚ) ≤ m := by exact_mod_cast h0
  have hm' : (m : ℚ) ≤ 65535 * 175 := by exact_mod_cast hm
  push_cast at hdifference ⊢
  have hrange : |toRat (quotientIn binary64 m) - 45| ≤ 2 ^ 8 := by
    rw [abs_le]
    constructor <;> linarith
  rw [← hdifference] at hrange
  have hrounded : |toRat (differenceIn binary64 m) -
      toRat ((quotientIn binary64 m).1 - 45 * ((quotientIn binary64 m).2 : ℤ), (quotientIn binary64 m).2)| ≤ 1 / 2 ^ 46 :=
    abs_toRat_roundTo_binary64_sub_le hden hrange
  rw [hdifference, abs_le] at hrounded
  rw [abs_le]
  constructor <;> linarith

end Sys2Proof.Proofs
end

section
/-! Rounding twice (spec/43_convert.md R142, facts 2 and 3). The errors of binary64 are too small to reach the middle of two binary32
values, which no ratio over 65535 comes near, but for a few raw codes whose results are nearly zero; those are evaluated. -/

namespace Sys2Proof.Proofs

open Sys2Proof.Machine Sys2Proof.Laws

/-! ### A close neighbour of a ratio -/

/-- A ratio with the sign of `n / 65535` and the same nearest code is rounded to the same encoding. -/
theorem rn32_eq_of_isNearestCode {q : ℤ × ℕ} {n : ℤ} (hd : 0 < q.2) (hq : |toRat q| ≤ maxFinite32)
    (hsign : q.1 < 0 ↔ n < 0) (hnear : IsNearestCode 23 (|toRat q| * 2 ^ 149) (ratioCode n)) :
    rn32 q.1 q.2 = rn32 n 65535 := by
  rw [rn32_ratio, rn32_eq_encodeFloat, (magnitudeBits_binary32 hd hq).1.unique hnear, decide_eq_decide.mpr hsign]

/-- The middle of two values, one of which is the nearest to a ratio over 65535, is not the ratio itself: no tie occurs. -/
theorem two_mul_ratio_ne_add {n : ℤ} (hn : InConversionRange n) {M : ℕ} (hne : M ≠ ratioCode n) :
    2 * (|(n : ℚ) / 65535| * 2 ^ 149) ≠ codeUnits 23 M + codeUnits 23 (ratioCode n) := by
  intro htie
  have hdyadic : ((n.natAbs : ℤ) : ℚ) / 65535 = ((codeUnits 23 M + codeUnits 23 (ratioCode n) : ℤ) : ℚ) / 2 ^ 150 := by
    rw [abs_ratio] at htie
    generalize n.natAbs = N at htie ⊢
    push_cast
    linarith
  have hexact := ratioCode_exact_of_dvd hn (Int.dvd_natAbs.mp (dvd_of_ratio_eq_dyadic hdyadic))
  rw [hexact, two_mul, add_left_inj, Nat.cast_inj] at htie
  exact hne ((codeUnits_strictMono 23).injective htie.symm)

theorem lt_abs_intCast_mul {z : ℤ} (hz : z ≠ 0) : (2 : ℚ) ^ 105 < |(z : ℚ) * (2 ^ 121 / 65535)| := by
  have hone : (1 : ℚ) ≤ |(z : ℚ)| := by exact_mod_cast Int.one_le_abs hz
  rw [abs_mul, abs_of_pos (show (0 : ℚ) < 2 ^ 121 / 65535 by norm_num)]
  calc (2 : ℚ) ^ 105 < 1 * (2 ^ 121 / 65535) := by norm_num
    _ ≤ |(z : ℚ)| * (2 ^ 121 / 65535) := mul_le_mul_of_nonneg_right hone (by norm_num)

/-- Twice the distance from a ratio to the middle of two multiples of `2 ^ 121` units. -/
theorem exists_two_mul_ratio_sub_eq (n : ℤ) {U U' : ℕ} (hU : 2 ^ 121 ∣ U) (hU' : 2 ^ 121 ∣ U') :
    ∃ z : ℤ, 2 * (|(n : ℚ) / 65535| * 2 ^ 149) - (U + U') = z * (2 ^ 121 / 65535) := by
  obtain ⟨a, rfl⟩ := hU
  obtain ⟨b, rfl⟩ := hU'
  refine ⟨n.natAbs * 2 ^ 29 - 65535 * (a + b), ?_⟩
  rw [abs_ratio]
  generalize n.natAbs = N
  push_cast
  ring

/-- Where both values are multiples of `2 ^ 121` units, their middle is a ratio over 65535 or far from it. -/
theorem two_mul_ratio_far {n : ℤ} {M M' : ℕ} (hM : 2 ^ 23 * 2 ^ 121 ≤ codeUnits 23 M)
    (hM' : 2 ^ 23 * 2 ^ 121 ≤ codeUnits 23 M')
    (hne : 2 * (|(n : ℚ) / 65535| * 2 ^ 149) ≠ codeUnits 23 M + codeUnits 23 M') :
    2 ^ 105 < |2 * (|(n : ℚ) / 65535| * 2 ^ 149) - (codeUnits 23 M + codeUnits 23 M')| := by
  obtain ⟨z, hz⟩ := exists_two_mul_ratio_sub_eq n (two_pow_dvd_codeUnits hM) (two_pow_dvd_codeUnits hM')
  rw [← sub_ne_zero, hz] at hne
  rw [hz]
  refine lt_abs_intCast_mul ?_
  rintro rfl
  simp at hne

/-- Codes of numbers from `2 ^ -5` on. -/
theorem le_codeUnits_of_isNearestCode {X : ℚ} {M : ℕ} (h : IsNearestCode 23 X M) (hX : 2 ^ 144 ≤ X) :
    2 ^ 23 * 2 ^ 121 ≤ codeUnits 23 M := by
  have hsig : IsSignificand 23 121 (2 ^ 23) := ⟨by norm_num, .inr le_rfl⟩
  rw [← codeUnits_eq hsig]
  refine (codeUnits_strictMono 23).monotone (h.ge_of_ge ?_)
  rw [codeUnits_eq hsig]
  push_cast
  linarith

/-- A neighbour so close to a ratio lies on the same side of every middle of two values. -/
theorem ratioCode_eq_of_close {n : ℤ} {Y : ℚ} {M : ℕ} (hn : InConversionRange n) (hlow : 2049 ≤ n.natAbs)
    (hclose : |Y - |(n : ℚ) / 65535| * 2 ^ 149| ≤ 2 ^ 104) (hM : IsNearestCode 23 Y M) : M = ratioCode n := by
  have hX : (2 : ℚ) ^ 144 + 2 ^ 104 ≤ |(n : ℚ) / 65535| * 2 ^ 149 := by
    have hlow' : (2049 : ℚ) ≤ n.natAbs := by exact_mod_cast hlow
    rw [abs_ratio]
    linarith
  obtain ⟨hbelow, habove⟩ := abs_le.mp hclose
  have hcode := isNearestCode_ratioCode hn
  have hUM := le_codeUnits_of_isNearestCode hM (by linarith)
  have hUC := le_codeUnits_of_isNearestCode hcode (by linarith)
  by_contra hne
  have hfar := two_mul_ratio_far hUM hUC (two_mul_ratio_ne_add hn hne)
  refine absurd hfar (not_lt.mpr (abs_le.mpr ?_))
  rcases lt_or_gt_of_ne hne with hlt | hlt
  · have h1 := hM.le_midpoint hlt
    have h2 := hcode.midpoint_le hlt
    constructor <;> linarith
  · have h1 := hM.midpoint_le hlt
    have h2 := hcode.le_midpoint hlt
    constructor <;> linarith

theorem toRat_neg_iff {q : ℤ × ℕ} (hd : 0 < q.2) : toRat q < 0 ↔ q.1 < 0 := by
  have hd' : (0 : ℚ) < q.2 := by exact_mod_cast hd
  rw [toRat, div_lt_iff₀ hd', zero_mul]
  exact Int.cast_lt_zero

/-- Rounding once more what is so close to a ratio gives the rounded ratio. -/
theorem rn32_eq_of_close {q : ℤ × ℕ} {n : ℤ} (hd : 0 < q.2) (hn : InConversionRange n) (hlow : 2049 ≤ n.natAbs)
    (hclose : |toRat q - n / 65535| ≤ 1 / 2 ^ 45) : rn32 q.1 q.2 = rn32 n 65535 := by
  have habs : |(|toRat q| - |(n : ℚ) / 65535|)| ≤ 1 / 2 ^ 45 := (abs_abs_sub_abs_le _ _).trans hclose
  have hrange : |toRat q| ≤ maxFinite32 := by
    have hle := hn.abs_ratio_le
    have hmax : (257 : ℚ) ≤ maxFinite32 := by norm_num [maxFinite32]
    linarith [(abs_le.mp habs).2]
  have hsign : q.1 < 0 ↔ n < 0 := by
    rw [← toRat_neg_iff hd, ← toRat_neg_iff (q := (n, 65535)) (Nat.succ_pos _)]
    have hlow' : (2049 : ℚ) / 65535 ≤ |(n : ℚ) / 65535| := by
      rw [abs_ratio]
      exact div_le_div_of_nonneg_right (by exact_mod_cast hlow) (by norm_num)
    have hn' : toRat (n, 65535) = (n : ℚ) / 65535 := rfl
    rw [hn']
    obtain ⟨hbelow, habove⟩ := abs_le.mp hclose
    rcases le_abs'.mp hlow' with hneg | hpos
    · exact iff_of_true (by linarith) (by linarith)
    · exact iff_of_false (by linarith) (by linarith)
  have hscaled : |(|toRat q| * 2 ^ 149) - |(n : ℚ) / 65535| * 2 ^ 149| ≤ 2 ^ 104 := by
    rw [← sub_mul, abs_mul, abs_of_pos (show (0 : ℚ) < 2 ^ 149 by positivity)]
    linarith
  have hnear := (magnitudeBits_binary32 hd hrange).1
  exact rn32_eq_of_isNearestCode hd hrange hsign (ratioCode_eq_of_close hn hlow hscaled hnear ▸ hnear)

/-! ### Fact 2: binary64 -/

/-- The 21 smallest humidities, whose ratios are below `2 ^ -5`. -/
theorem humEvaluatedIn_binary64_small :
    ∀ k < 21, humEvaluatedIn binary64 (BitVec.ofNat 16 k) = humBits (BitVec.ofNat 16 k) := by
  decide +kernel

/-- The 23 temperatures whose ratios are nearest to zero, below `2 ^ -5` in magnitude. -/
theorem tempEvaluatedIn_binary64_small :
    ∀ k < 23, tempEvaluatedIn binary64 (BitVec.ofNat 16 (16841 + k)) = tempBits (BitVec.ofNat 16 (16841 + k)) := by
  decide +kernel

theorem humEvaluatedIn_binary64 (raw : Halfword) : humEvaluatedIn binary64 raw = humBits raw := by
  rcases lt_or_ge raw.toNat 21 with hsmall | hlarge
  · simpa using humEvaluatedIn_binary64_small raw.toNat hsmall
  · have hlt := raw.isLt
    have hlow : 2049 ≤ (humNumerator raw).natAbs := by
      unfold humNumerator
      omega
    have hm : (humNumerator raw).natAbs ≤ 2 ^ 24 - 2 ^ 8 := by
      unfold humNumerator
      omega
    have hclose := abs_quotientIn_binary64_sub_le hm
    rw [humEvaluatedIn_eq]
    exact rn32_eq_of_close (roundTo_den_pos binary64_hasBits _) (humNumerator_inRange raw) hlow
      (hclose.trans (by norm_num))

theorem tempEvaluatedIn_binary64 (raw : Halfword) : tempEvaluatedIn binary64 raw = tempBits raw := by
  have hlt := raw.isLt
  by_cases hsmall : 16841 ≤ raw.toNat ∧ raw.toNat < 16841 + 23
  · obtain ⟨k, hk⟩ := Nat.exists_eq_add_of_le hsmall.1
    have hcase := tempEvaluatedIn_binary64_small k (by omega)
    rwa [← hk, BitVec.ofNat_toNat, BitVec.setWidth_eq] at hcase
  · have hlow : 2049 ≤ (tempNumerator raw).natAbs := by
      unfold tempNumerator conversionDivisor
      omega
    rw [tempEvaluatedIn_eq]
    exact rn32_eq_of_close (roundTo_den_pos binary64_hasBits _) (tempNumerator_inRange raw) hlow
      (abs_differenceIn_binary64_sub_le (by omega) (by omega))

/-- Settles O30: the errors of binary64 do not reach the middle of two binary32 values. -/
theorem binary64EvaluationAgrees : Obligations.Binary64EvaluationAgrees := fun raw =>
  ⟨humEvaluatedIn_binary64 raw, tempEvaluatedIn_binary64 raw⟩

/-! ### Fact 3: binary32 -/

/-- A result of at least zero that is rounded in binary32 already is only read again. -/
theorem rn32_roundTo_binary32 {q : ℤ × ℕ} {n : ℤ} (hd : 0 < q.2) (hn : InConversionRange n) (h0 : 0 ≤ n)
    (hq : toRat q = n / 65535) : rn32 (roundTo binary32 q).1 (roundTo binary32 q).2 = rn32 n 65535 := by
  have hden := roundTo_den_pos binary32_hasBits q
  have hpos : ¬ q.1 < 0 := by
    rw [← toRat_neg_iff hd, hq, not_lt]
    exact div_nonneg (by exact_mod_cast h0) (by norm_num)
  have hcode : roundedCode binary32 q = ratioCode n := by
    have hrange : |toRat q| ≤ 2 ^ 24 := by
      rw [hq]
      exact hn.abs_ratio_le.trans (by norm_num)
    exact (hq ▸ isNearestCode_roundedCode binary32_holdsIntermediates hd hrange).unique (isNearestCode_ratioCode hn)
  have hvalue : toRat (roundTo binary32 q) = codeUnits 23 (ratioCode n) / 2 ^ 149 := by
    simp [toRat_roundTo binary32_hasBits, hcode, hpos, signFactor]
  have hnonneg : 0 ≤ toRat (roundTo binary32 q) := by
    rw [hvalue]
    positivity
  refine rn32_eq_of_isNearestCode hden ?_ ?_ ?_
  · have hle : ratioCode n ≤ 255 * 2 ^ 23 - 1 := Nat.le_sub_one_of_lt (ratioCode_lt hn)
    have hcodes : (codeUnits 23 (ratioCode n) : ℚ) ≤ codeUnits 23 (255 * 2 ^ 23 - 1) := by
      exact_mod_cast (codeUnits_strictMono 23).monotone hle
    rw [abs_of_nonneg hnonneg, hvalue, div_le_iff₀ (by positivity), ← codeUnits_maxFinite32]
    exact hcodes
  · rw [← toRat_neg_iff hden]
    exact iff_of_false (not_lt.mpr hnonneg) (not_lt.mpr h0)
  · rw [abs_of_nonneg hnonneg, hvalue, div_mul_cancel₀ _ (by positivity)]
    exact isNearestCode_codeUnits 23 (ratioCode n)

theorem humEvaluatedIn_binary32 (raw : Halfword) : humEvaluatedIn binary32 raw = humBits raw := by
  have hn := humNumerator_inRange raw
  have hm : (humNumerator raw).natAbs ≤ 2 ^ 24 := by
    unfold InConversionRange at hn
    omega
  rw [humEvaluatedIn_eq]
  exact rn32_roundTo_binary32 (product_den_pos binary32_hasBits _) hn (humNumerator_nonneg raw)
    (toRat_product_div binary32_holdsIntermediates hm)

/-- Settles O31: the humidity's quotient is its result already, and the example is evaluated. -/
theorem binary32EvaluationAgreesForHumidityOnly : Obligations.Binary32EvaluationAgreesForHumidityOnly :=
  ⟨humEvaluatedIn_binary32, by decide, by decide⟩

theorem tempEvaluatedIn_binary32_16852 : tempEvaluatedIn binary32 16852 = 0x39C80000 := by decide

theorem tempBits_16852 : tempBits 16852 = 0x39C800C8 := by decide

theorem floatValue?_0x39C80000 : floatValue? 0x39C80000 = some (25 / 65536) := by
  have hcode : (0x39C80000 : FloatBits) = encodeFloat false (114 * 2 ^ 23 + 13107200) := by decide
  rw [hcode, floatValue?_encodeFloat (by norm_num), codeUnits_eq ⟨by norm_num, .inr (by norm_num)⟩]
  norm_num [signFactor]

theorem floatValue?_0x39C800C8 : floatValue? 0x39C800C8 = some (25 / 65536 + 25 / 2 ^ 32) := by
  have hcode : (0x39C800C8 : FloatBits) = encodeFloat false (114 * 2 ^ 23 + 13107400) := by decide
  rw [hcode, floatValue?_encodeFloat (by norm_num), codeUnits_eq ⟨by norm_num, .inr (by norm_num)⟩]
  norm_num [signFactor]

/-- Refutes O32: for raw 16852 the exact temperature is `25 / 65535`, where a unit in the last place is `2 ^ -35`; binary32
throughout gives `25 / 65536`, 200 units away. -/
theorem not_binary32TemperatureIsWithinOneUlp : ¬ Obligations.Binary32TemperatureIsWithinOneUlp := by
  intro h
  obtain ⟨a, b, ha, hb, hab⟩ := h 16852
  have hexponent : exponentField 0x39C800C8 = 115 := by decide
  rw [tempEvaluatedIn_binary32_16852, floatValue?_0x39C80000] at ha
  rw [tempBits_16852, floatValue?_0x39C800C8] at hb
  rw [tempBits_16852, hexponent, ← Option.some.inj ha, ← Option.some.inj hb] at hab
  norm_num at hab

end Sys2Proof.Proofs
end
